-- ==== Sys2Proof/Word.lean ====
section
/-! DEFINITION. The word types TCODEC's ports and its one register carry (spec 00_scope.md R6, R8; 10_state.md R16, R25, R26).
Bit 0 is the least significant bit of every value (R8). -/

namespace Sys2Proof

/-- CFG, CMD, BIN, BOUT and every byte on the bus: 8 bits (CFG_BITS and CMD_BITS of R6). -/
abbrev Byte := BitVec 8

/-- A 16-bit device word, WIN or WOUT (WORD_BITS of R6): bits 15:8 are the first byte on the bus (R33, R34). -/
abbrev DeviceWord := BitVec 16

/-- An IEEE-754 binary32 bit pattern, TIN or TOUT (FLOAT_FMT of R6, decision D3). -/
abbrev Pattern32 := BitVec 32

/-- The 2-bit field value of a setter (IMM2, R49) and of a getter's result (FOUT, R26). -/
abbrev FieldValue := BitVec 2

end Sys2Proof
end

