-- ==== Sys2Proof/Config.lean ====
section
/-! DEFINITION. The implementation parameters of spec 00_scope.md R6: the two device-word layouts, the encoder's fraction mode,
and the one parameter the spec leaves OPEN. -/

namespace Sys2Proof.Config

/-- N_MAIN: the significant bits of a main (live temperature) word, word bits 15:5. -/
abbrev nMain : Nat := 11

/-- F_MAIN: the fractional bits of a main word, step 0.125 °C. -/
abbrev fMain : Nat := 3

/-- N_THR: the significant bits of a threshold word, word bits 15:7. -/
abbrev nThr : Nat := 9

/-- F_THR: the fractional bits of a threshold word, step 0.5 °C. -/
abbrev fThr : Nat := 1

/-- ENC_FRAC_MODE: how ENCT turns a fractional remainder into the fraction bit. PRESENCE is the only mode R6 and R68 define; a
round-to-nearest mode does not exist (decision D11, 93_implementation_defined.md "a model must refuse to assume it"). -/
inductive FracMode where
  | presence
deriving DecidableEq, Repr

/-- The value R6 gives ENC_FRAC_MODE. -/
def encFracMode : FracMode := .presence

/-- LATENCY: the time from a command's issue to its result. R6 leaves it OPEN, R126 says no rule depends on it: an uninterpreted
constant that no definition reads (log entry 5). -/
opaque latency : Nat

end Sys2Proof.Config
end

