-- ==== Sys2Proof/Syntax.lean ====
section
/-! DEFINITION. The TCODEC command set: one constructor per row of spec/opcode_table.json, in the table's order
(30_encoding.md R50). Operands that travel on the ports WIN, TIN and BIN are no part of the command word (R25, R51), so only the
four setters carry a field of it. -/

namespace Sys2Proof

/-- A TCODEC command. A setter carries the whole IMM2 field of its word (R49); for SETSD, SETAM and SETAP its bit 1 must be 0,
which is Instr.wf's check. -/
inductive Instr where
  /-- DECM (R64): decode the main, 11-bit word on WIN. -/
  | decm
  /-- DECT (R65): decode the threshold, 9-bit word on WIN. -/
  | dect
  /-- ENCT (R70): encode the binary32 on TIN as a threshold word. -/
  | enct
  /-- CFGDEF (R82): start a fresh configuration. -/
  | cfgdef
  /-- SETSD (R83): OR into the shutdown field. -/
  | setsd (imm2 : FieldValue)
  /-- SETAM (R84): OR into the alert-mode field. -/
  | setam (imm2 : FieldValue)
  /-- SETAP (R85): OR into the alert-polarity field. -/
  | setap (imm2 : FieldValue)
  /-- SETFQ (R86): OR into the fault-queue-length field. -/
  | setfq (imm2 : FieldValue)
  /-- GETSD (R87): read the shutdown field. -/
  | getsd
  /-- GETAM (R88): read the alert-mode field. -/
  | getam
  /-- GETAP (R89): read the alert-polarity field. -/
  | getap
  /-- GETFQ (R90): read the fault-queue-length field. -/
  | getfq
  /-- CFGLD (R91): load CFG from BIN. -/
  | cfgld
  /-- CFGRD (R92): read CFG whole. -/
  | cfgrd
deriving DecidableEq, Repr

end Sys2Proof
end

