-- ==== Sys2Proof/WellFormed.lean ====
section
/-! DEFINITION. Which commands have an encoding (30_encoding.md R49, R55): IMM2[1] must be 0 with SETSD, SETAM and SETAP; every
IMM2 is legal with SETFQ; no other command has a field. -/

namespace Sys2Proof

/-- R55's second case: IMM2 with bit 1 set has no encoding for a 1-bit field. -/
def oneBitImm (imm2 : FieldValue) : Bool := !imm2[1]

/-- The command has an encoding. -/
def Instr.wf : Instr → Bool
  | .decm => true
  | .dect => true
  | .enct => true
  | .cfgdef => true
  | .setsd imm2 => oneBitImm imm2
  | .setam imm2 => oneBitImm imm2
  | .setap imm2 => oneBitImm imm2
  | .setfq _ => true
  | .getsd => true
  | .getam => true
  | .getap => true
  | .getfq => true
  | .cfgld => true
  | .cfgrd => true

end Sys2Proof
end

