-- ==== Sys2Proof/Decode.lean ====
section
/-! DEFINITION. The command encoding (30_encoding.md R47 to R57): the opcode map as rows, the decoder, total on the 256 words and
rejecting by name, and after it the encoder. -/

namespace Sys2Proof

/-- Why a CMD word is reserved: one name per rule. All of them are the one fault ReservedCommand (60_exceptions.md R101). -/
inductive Reserved where
  /-- R54: CMD[7:6] is not 0b00. -/
  | rsvNotZero
  /-- R53: OP is 0x0 or 0xF. -/
  | opUnassigned
  /-- R55: IMM2 is not 0b00 with a command that takes no field value, or IMM2[1] = 1 with a 1-bit field. -/
  | immMisused
deriving DecidableEq, Repr

/-- RSV, CMD[7:6] (R48). -/
def cmdRsv (cmd : Byte) : BitVec 2 := cmd.extractLsb' 6 2

/-- IMM2, CMD[5:4] (R48). -/
def cmdImm2 (cmd : Byte) : FieldValue := cmd.extractLsb' 4 2

/-- OP, CMD[3:0] (R48). -/
def cmdOp (cmd : Byte) : BitVec 4 := cmd.extractLsb' 0 4

/-- The commands that take no field value, by OP (R50). -/
def decodePlain (op : BitVec 4) : Except Reserved Instr :=
  if op = 0x1#4 then .ok .decm
  else if op = 0x2#4 then .ok .dect
  else if op = 0x3#4 then .ok .enct
  else if op = 0x4#4 then .ok .cfgdef
  else if op = 0x9#4 then .ok .getsd
  else if op = 0xA#4 then .ok .getam
  else if op = 0xB#4 then .ok .getap
  else if op = 0xC#4 then .ok .getfq
  else if op = 0xD#4 then .ok .cfgld
  else if op = 0xE#4 then .ok .cfgrd
  else .error .opUnassigned

/-- A setter of a 1-bit field: reserved, not masked, when IMM2[1] = 1 (R55, decision D8). -/
def decodeOneBit (setter : FieldValue → Instr) (imm2 : FieldValue) : Except Reserved Instr :=
  if imm2[1] then .error .immMisused else .ok (setter imm2)

/-- The decoder, in the order of R57's steps. -/
def decode (cmd : Byte) : Except Reserved Instr :=
  let op := cmdOp cmd
  let imm2 := cmdImm2 cmd
  if cmdRsv cmd ≠ 0#2 then .error .rsvNotZero
  else if op = 0x0#4 ∨ op = 0xF#4 then .error .opUnassigned
  else if op = 0x8#4 then .ok (.setfq imm2)
  else if op = 0x5#4 then decodeOneBit .setsd imm2
  else if op = 0x6#4 then decodeOneBit .setam imm2
  else if op = 0x7#4 then decodeOneBit .setap imm2
  else if imm2 ≠ 0#2 then .error .immMisused
  else decodePlain op

/-- A word of RSV = 0, the IMM2 and the OP given (R48). -/
def cmdWord (imm2 : FieldValue) (op : BitVec 4) : Byte := 0#2 ++ imm2 ++ op

/-- The encoder: the one CMD word of a command (R50, R56). -/
def encode : Instr → Byte
  | .decm => cmdWord 0#2 0x1#4
  | .dect => cmdWord 0#2 0x2#4
  | .enct => cmdWord 0#2 0x3#4
  | .cfgdef => cmdWord 0#2 0x4#4
  | .setsd imm2 => cmdWord imm2 0x5#4
  | .setam imm2 => cmdWord imm2 0x6#4
  | .setap imm2 => cmdWord imm2 0x7#4
  | .setfq imm2 => cmdWord imm2 0x8#4
  | .getsd => cmdWord 0#2 0x9#4
  | .getam => cmdWord 0#2 0xA#4
  | .getap => cmdWord 0#2 0xB#4
  | .getfq => cmdWord 0#2 0xC#4
  | .cfgld => cmdWord 0#2 0xD#4
  | .cfgrd => cmdWord 0#2 0xE#4

/-- A row of R50's opcode map: a word matches it when `(CMD & mask) == match`. -/
structure OpcodeRow where
  mnemonic : String
  matchBits : Byte
  mask : Byte
deriving DecidableEq, Repr

/-- R50's opcode map, its rows that name a command, in its order. -/
def opcodeMap : List OpcodeRow :=
  [⟨"DECM", 0x01, 0xFF⟩, ⟨"DECT", 0x02, 0xFF⟩, ⟨"ENCT", 0x03, 0xFF⟩, ⟨"CFGDEF", 0x04, 0xFF⟩,
   ⟨"SETSD", 0x05, 0xEF⟩, ⟨"SETAM", 0x06, 0xEF⟩, ⟨"SETAP", 0x07, 0xEF⟩, ⟨"SETFQ", 0x08, 0xCF⟩,
   ⟨"GETSD", 0x09, 0xFF⟩, ⟨"GETAM", 0x0A, 0xFF⟩, ⟨"GETAP", 0x0B, 0xFF⟩, ⟨"GETFQ", 0x0C, 0xFF⟩,
   ⟨"CFGLD", 0x0D, 0xFF⟩, ⟨"CFGRD", 0x0E, 0xFF⟩]

/-- A word matches a row (R50). -/
def OpcodeRow.matchesWord (r : OpcodeRow) (cmd : Byte) : Bool := cmd &&& r.mask == r.matchBits

/-- The mnemonic of a command, as R50 spells it. -/
def Instr.mnemonic : Instr → String
  | .decm => "DECM"
  | .dect => "DECT"
  | .enct => "ENCT"
  | .cfgdef => "CFGDEF"
  | .setsd _ => "SETSD"
  | .setam _ => "SETAM"
  | .setap _ => "SETAP"
  | .setfq _ => "SETFQ"
  | .getsd => "GETSD"
  | .getam => "GETAM"
  | .getap => "GETAP"
  | .getfq => "GETFQ"
  | .cfgld => "CFGLD"
  | .cfgrd => "CFGRD"

/-- The command this decoder reads from a table word. Every TCODEC command is one 8-bit word (R47), so the word is w's low 8 bits,
those above nbits zero. -/
def decodeTableWord (nbits w : Nat) : Option Instr :=
  (decode (BitVec.ofNat 8 (w % 2 ^ nbits))).toOption

end Sys2Proof
end

