-- ==== Sys2Proof/Machine/State.lean ====
section
/-! DEFINITION. TCODEC's state as plain data, the reasons a command can stop, and the state after reset
(10_state.md, 60_exceptions.md R101, 70_reset_and_hazards.md R115 to R118). -/

namespace Sys2Proof.Machine

open Sys2Proof

/-- The two model faults of R101. Each carries what R101 records with it. Both err toward unprovable (R101): safe. -/
inductive Fault where
  /-- Code 1. Raised by step when the CMD word it samples is a reserved encoding (R53, R54, R55); records the CMD word. Safe: the
  spec leaves the hardware's behaviour for such a word unspecified. -/
  | reservedCommand (cmd : Byte)
  /-- Code 2. Raised by ENCT when TIN is a NaN, an infinity, or a finite value outside [-128, 128) (R67); records the TIN pattern.
  Safe: the spec leaves the hardware's output for such an input unspecified. -/
  | encodeDomain (tin : Pattern32)
deriving DecidableEq, Repr

/-- The refusals. Every command of the opcode table has its meaning, so no step of this model answers one. -/
inductive Refusal where
  /-- An instruction without a meaning, by its mnemonic. Raised by no arm of exec. Safe. -/
  | notModelled (mnemonic : String)
deriving DecidableEq, Repr

/-- A command's result, the tagged value (KIND, v) of R26. -/
inductive Result where
  /-- KIND = NONE: no result port has a value (R26, R27, R116). -/
  | noResult
  /-- KIND = TEMP: TOUT, a binary32 pattern. Driven by DECM and DECT. -/
  | temp (tout : Pattern32)
  /-- KIND = WORD: WOUT, a device word. Driven by ENCT. -/
  | word (wout : DeviceWord)
  /-- KIND = FIELD: FOUT. Driven by GETSD, GETAM, GETAP and GETFQ. -/
  | field (fout : FieldValue)
  /-- KIND = BYTE: BOUT. Driven by CFGRD. -/
  | byte (bout : Byte)
deriving DecidableEq, Repr

/-- The input ports of R25, as the host drives them for one command. -/
structure Ports where
  /-- CMD, the command word. -/
  cmd : Byte
  /-- WIN, the device word to decode; WIN[15:8] is the first byte on the bus. -/
  win : DeviceWord
  /-- TIN, the temperature to encode, a binary32 pattern. -/
  tin : Pattern32
  /-- BIN, the raw configuration byte, as read back from the device. -/
  bin : Byte
deriving DecidableEq, Repr

/-- Everything the spec gives the block, and the host's command stream. -/
structure State where
  /-- The configuration register: the only architectural state (R15, R16). -/
  cfg : Byte
  /-- What the input ports carried when the latest command sampled them (R25). -/
  ports : Ports
  /-- What the latest step drove on the result ports: the tagged result of R26. It is replaced by every step, so a result port has
  no value outside the command that drives it (R27). -/
  result : Result
  /-- The commands the host has yet to present, in the order it presents them: the one ordered command sequence of R37 and R40
  (the model's own field, log entry 2). -/
  pending : List Ports
  /-- The fault record of R118 (model only): once it holds a fault, the run is over (R102). -/
  faultRecord : Option Fault
deriving DecidableEq, Repr

/-- The input ports at reset. R116 says the operand ports hold whatever the host drives; zero is this model's DESIGN CHOICE (log
entry 1), and no step reads it, because every step samples the ports first. -/
def Ports.atReset : Ports := { cmd := 0x00, win := 0x0000, tin := 0x00000000, bin := 0x00 }

/-- The machine right after reset: CFG = 0x00, no result port with a value, no fault record (R115, R116, R118), and no command
presented yet (R29). -/
def State.reset : State :=
  { cfg := 0x00, ports := Ports.atReset, result := .noResult, pending := [], faultRecord := none }

end Sys2Proof.Machine
end

