-- ==== Sys2Proof/Machine/Ops.lean ====
section
/-! DEFINITION. The operations the commands share: the notation of 00_scope.md R8 and R9, the writes of CFG and of the result ports
(R11), presenting and sampling a command (R25, R37), raising a model fault and recording it (60_exceptions.md R101, R102, R106),
and applying reset (R115). TCODEC has no memory (R32), no trap entry and no trap return (R106, R107), so there is no operation for
those. -/

namespace Sys2Proof.Machine

open Sys2Proof

/-- `v[lo+width-1 : lo]` of R8, as a value of its own width. -/
def slice {n : Nat} (v : BitVec n) (lo width : Nat) : BitVec width := v.extractLsb' lo width

/-- `sval_N(x) = x - 2^N * x[N-1]` of R9: the two's-complement value of x. -/
def sval {n : Nat} (x : BitVec n) : Int :=
  (x.toNat : Int) - if x.getMsbD 0 then (2 : Int) ^ n else 0

/-- `neg_N(x) = ((~x) + 1) & (2^N - 1)` of R9: the source's "invert-and-add-one" over an N-bit field. -/
def negField {n : Nat} (x : BitVec n) : BitVec n := ~~~x + 1

/-- The big-endian word of two bus bytes in arrival order: `WIN = {msb, lsb}` (R33). -/
def wordOfBytes (msb lsb : Byte) : DeviceWord := msb ++ lsb

/-- The bytes of a word in the order they are sent: WOUT[15:8], then WOUT[7:0] (R34). -/
def bytesOfWord (w : DeviceWord) : List Byte := [slice w 8 8, slice w 0 8]

/-- `CFG <- v` (R11). -/
def State.writeCfg (s : State) (v : Byte) : State := { s with cfg := v }

/-- `result <- r` (R11): drive one result port, or none (R26). -/
def State.drive (s : State) (r : Result) : State := { s with result := r }

/-- `raise Fault(code)` (R11): the command ends, drives no result and changes no state (R102, R106). -/
def raise (f : Fault) : Host.Outcome State Fault Refusal := .fault f

/-- The number R101 gives a model fault. -/
def Fault.code : Fault → Nat
  | .reservedCommand _ => 1
  | .encodeDomain _ => 2

/-- The next command the host presents: the ports are sampled once and the command leaves the host's stream (R25, R37). No value
when the host presents none. -/
def fetch (s : State) : Option State :=
  match s.pending with
  | [] => none
  | p :: rest => some { s with ports := p, pending := rest }

/-- A step in which the host presents no command: CFG keeps its value and no result port has one (R16, R27; log entry 3). -/
def State.idle (s : State) : State := s.drive .noResult

/-- The commands ps put at the end of the host's stream. -/
def State.present (s : State) (ps : List Ports) : State := { s with pending := s.pending ++ ps }

/-- The next command word the host presents becomes cmd, with the operands it drives already; where the host presents nothing, the
operand ports go on carrying what they carry (R25). -/
def placeCommand (s : State) (cmd : Byte) : State :=
  match s.pending with
  | [] => { s with pending := [{ s.ports with cmd := cmd }] }
  | p :: rest => { s with pending := { p with cmd := cmd } :: rest }

/-- The faulted state of R102: the fault is recorded, no result port has a value, and CFG is as it was before the faulting command
(R106: it changes no state before it faults). -/
def State.latchFault (s : State) (f : Fault) : State :=
  { s with result := .noResult, faultRecord := some f }

/-- Reset, applied to a block the host is driving (R115, R118): CFG <- 0x00, no result port has a value, no fault record. The ports
and the stream are the host's, and reset leaves them (R116). -/
def State.applyReset (s : State) : State :=
  { s with cfg := 0x00, result := .noResult, faultRecord := none }

end Sys2Proof.Machine
end

