-- ==== Sys2Proof/Machine/Operands.lean ====
section
/-! DEFINITION. Every operand and result form the spec gives: the significant field of a device word (30_encoding.md R52), the
setters' field value (R49), and the read of a result port (10_state.md R26, R27). -/

namespace Sys2Proof.Machine

open Sys2Proof

/-- The significant field of a device word: its top n bits, `w[15 : 16-N]` (R61). The padding below it is ignored. -/
def sigField (n : Nat) (w : DeviceWord) : BitVec n := slice w (16 - n) n

/-- F11 = WIN[15:5] (R52). -/
def mainField (w : DeviceWord) : BitVec Config.nMain := sigField Config.nMain w

/-- F9 = WIN[15:7] (R52). -/
def thrField (w : DeviceWord) : BitVec Config.nThr := sigField Config.nThr w

/-- The padding of a device word: its low 16-N bits (R13). -/
def padding (n : Nat) (w : DeviceWord) : BitVec (16 - n) := slice w 0 (16 - n)

/-- The field value of a setter of a 1-bit field: IMM2[0], zero-extended (R49). -/
def immBit (imm2 : FieldValue) : Byte := (slice imm2 0 1).setWidth 8

/-- The field value of SETFQ: IMM2, zero-extended (R49). -/
def immPair (imm2 : FieldValue) : Byte := imm2.setWidth 8

/-- TOUT, where the latest command drove it; no value otherwise, never zero (R27, R116). -/
def State.tout (s : State) : Option Pattern32 :=
  match s.result with
  | .temp b => some b
  | _ => none

/-- WOUT, where the latest command drove it (R27). -/
def State.wout (s : State) : Option DeviceWord :=
  match s.result with
  | .word w => some w
  | _ => none

/-- FOUT, where the latest command drove it (R27). -/
def State.fout (s : State) : Option FieldValue :=
  match s.result with
  | .field v => some v
  | _ => none

/-- BOUT, where the latest command drove it (R27). -/
def State.bout (s : State) : Option Byte :=
  match s.result with
  | .byte v => some v
  | _ => none

end Sys2Proof.Machine
end

