-- ==== Sys2Proof/Machine/Flags.lean ====
section
/-! DEFINITION. TCODEC has no status flags and no condition codes (10_state.md R30), so no command computes one. What it has in
their place is CFG's bit fields (R17 to R22): their layout, the OR-setter of 41_config_fields.md R81, the mask-and-shift getter of
R87 to R90, and the meaning of each field's values. -/

namespace Sys2Proof.Machine

open Sys2Proof

/-- The four fields of CFG a setter and a getter exist for (R17). -/
inductive Field where
  /-- Shutdown, CFG[0] (R18). -/
  | sd
  /-- Alert mode, CFG[1] (R19). -/
  | am
  /-- Alert polarity, CFG[2] (R20). -/
  | ap
  /-- Fault queue length, CFG[4:3] (R21). -/
  | fq
deriving DecidableEq, Repr

/-- The position of a field's lowest bit (R17, R81). -/
def Field.shift : Field → Nat
  | .sd => 0
  | .am => 1
  | .ap => 2
  | .fq => 3

/-- The width of a field (R17, R81). -/
def Field.width : Field → Nat
  | .sd => 1
  | .am => 1
  | .ap => 1
  | .fq => 2

/-- `2^width - 1`: the ones of a field's width (R81). -/
def Field.ones (f : Field) : Byte := BitVec.ofNat 8 (2 ^ f.width - 1)

/-- The bits of CFG a field occupies. -/
def Field.bits (f : Field) : Byte := f.ones <<< f.shift

/-- `CFG | ((val & (2^width - 1)) << shift)` (R81): the value a setter leaves in CFG. -/
def orField (f : Field) (val cfg : Byte) : Byte := cfg ||| ((val &&& f.ones) <<< f.shift)

/-- A field's value, masked and shifted out of CFG and zero-extended to FOUT's 2 bits (R26, R87 to R90). -/
def getField (f : Field) (cfg : Byte) : FieldValue := ((cfg >>> f.shift) &&& f.ones).setWidth 2

/-- RSV, CFG[7:5] (R22): read by CFGRD only. -/
def rsvField (cfg : Byte) : BitVec 3 := slice cfg 5 3

/-- The number of consecutive faults a code of FQ stands for: 1, 2, 4 or 8 (R21). -/
def faultCount (fq : FieldValue) : Nat := 1 <<< fq.toNat

/-- SD's two meanings (R18). -/
inductive Shutdown where
  | normal
  | shutdown
deriving DecidableEq, Repr

/-- AM's two meanings (R19). -/
inductive AlertMode where
  | comparator
  | interrupt
deriving DecidableEq, Repr

/-- AP's two meanings (R20). -/
inductive AlertPolarity where
  | activeLow
  | activeHigh
deriving DecidableEq, Repr

/-- What a configuration byte tells the external sensor device (R18 to R23). -/
structure CfgMeaning where
  shutdown : Shutdown
  alertMode : AlertMode
  alertPolarity : AlertPolarity
  /-- Consecutive faults before the alert asserts. -/
  faults : Nat
deriving DecidableEq, Repr

/-- The device's reading of a configuration byte (R18 to R21). No command's result depends on it (R23). -/
def cfgMeaning (cfg : Byte) : CfgMeaning :=
  { shutdown := if getField .sd cfg = 0 then .normal else .shutdown
    alertMode := if getField .am cfg = 0 then .comparator else .interrupt
    alertPolarity := if getField .ap cfg = 0 then .activeLow else .activeHigh
    faults := faultCount (getField .fq cfg) }

end Sys2Proof.Machine
end

