-- ==== Sys2Proof/Machine/CfgCommands.lean ====
section
/-! DEFINITION. The configuration byte commands (41_config_fields.md): CFGDEF, the four OR-setters, the four getters, CFGLD and
CFGRD. None of them faults on any operand. -/

namespace Sys2Proof.Machine

open Sys2Proof

/-- SET(shift, width, val) of R81 as a command's effect: `CFG <- ...`; `result <- (NONE)`. -/
def setCommand (f : Field) (val : Byte) (s : State) : Host.Outcome State Fault Refusal :=
  .next ((s.writeCfg (orField f val s.cfg)).drive .noResult)

/-- A getter's effect: `result <- (FIELD, ...)`, CFG unchanged (R87 to R90, R96). -/
def getCommand (f : Field) (s : State) : Host.Outcome State Fault Refusal :=
  .next (s.drive (.field (getField f s.cfg)))

/-- CFGDEF (R82): `CFG <- 0x00`; `result <- (NONE)`. -/
def execCfgdef (s : State) : Host.Outcome State Fault Refusal :=
  .next ((s.writeCfg 0x00).drive .noResult)

/-- SETSD (R83): `CFG <- CFG | zext_8(sd)`, sd = IMM2[0]. -/
def execSetsd (imm2 : FieldValue) (s : State) : Host.Outcome State Fault Refusal :=
  setCommand .sd (immBit imm2) s

/-- SETAM (R84): `CFG <- CFG | (zext_8(am) << 1)`, am = IMM2[0]. -/
def execSetam (imm2 : FieldValue) (s : State) : Host.Outcome State Fault Refusal :=
  setCommand .am (immBit imm2) s

/-- SETAP (R85): `CFG <- CFG | (zext_8(ap) << 2)`, ap = IMM2[0]. -/
def execSetap (imm2 : FieldValue) (s : State) : Host.Outcome State Fault Refusal :=
  setCommand .ap (immBit imm2) s

/-- SETFQ (R86): `CFG <- CFG | (zext_8(fq) << 3)`, fq = IMM2. -/
def execSetfq (imm2 : FieldValue) (s : State) : Host.Outcome State Fault Refusal :=
  setCommand .fq (immPair imm2) s

/-- GETSD (R87): `result <- (FIELD, zext_2(CFG[0]))`. -/
def execGetsd (s : State) : Host.Outcome State Fault Refusal := getCommand .sd s

/-- GETAM (R88): `result <- (FIELD, zext_2(CFG[1]))`. -/
def execGetam (s : State) : Host.Outcome State Fault Refusal := getCommand .am s

/-- GETAP (R89): `result <- (FIELD, zext_2(CFG[2]))`. -/
def execGetap (s : State) : Host.Outcome State Fault Refusal := getCommand .ap s

/-- GETFQ (R90): `result <- (FIELD, CFG[4:3])`, the code and not the count (decision D14). -/
def execGetfq (s : State) : Host.Outcome State Fault Refusal := getCommand .fq s

/-- CFGLD (R91): `CFG <- BIN`, all 8 bits; `result <- (NONE)` (decision D12). -/
def execCfgld (s : State) : Host.Outcome State Fault Refusal :=
  .next ((s.writeCfg s.ports.bin).drive .noResult)

/-- CFGRD (R92): `result <- (BYTE, CFG)`, all 8 bits. -/
def execCfgrd (s : State) : Host.Outcome State Fault Refusal :=
  .next (s.drive (.byte s.cfg))

end Sys2Proof.Machine
end

