-- ==== Sys2Proof/Machine/Binary32.lean ====
section
/-! DEFINITION. IEEE-754 binary32 patterns as the spec reads and writes them: b32 (40_temperature_codec.md R63) and real (R66). A
finite pattern's value is held exactly, as an integer number of units of 2^-149, the smallest subnormal: no rounding happens
anywhere (00_scope.md R10). -/

namespace Sys2Proof.Machine

open Sys2Proof

/-- The sign bit, b[31] (R66). -/
def signBit (b : Pattern32) : Bool := b[31]

/-- The biased exponent, b[30:23] (R66). -/
def expField (b : Pattern32) : Nat := (slice b 23 8).toNat

/-- The fraction, b[22:0] (R66). -/
def fracField (b : Pattern32) : Nat := (slice b 0 23).toNat

/-- What a pattern denotes (R66). -/
inductive Class32 where
  /-- Zero, a subnormal or a normal number: real(b) is its value. -/
  | finite
  | infinite
  | nan
deriving DecidableEq, Repr

/-- R66's four cases; zero, subnormal and normal are the finite ones. -/
def classify (b : Pattern32) : Class32 :=
  if expField b ≠ 255 then .finite
  else if fracField b = 0 then .infinite
  else .nan

/-- The number of units of 2^-149 in 1 °C. -/
abbrev unitsPerDegree : Nat := 2 ^ 149

/-- `|real(b)|` of a finite pattern in units of 2^-149: m where e = 0, and (2^23 + m) * 2^(e-1) where 1 ≤ e ≤ 254, which is R66's
(2^23 + m) * 2^(e-150) (R66). -/
def magUnits (b : Pattern32) : Nat :=
  if expField b = 0 then fracField b else (2 ^ 23 + fracField b) * 2 ^ (expField b - 1)

/-- real(b) of a finite pattern in units of 2^-149 (R66). -/
def realUnits (b : Pattern32) : Int := if signBit b then -(magUnits b : Int) else (magUnits b : Int)

/-- real(b) of a finite pattern, in °C, as the exact rational it denotes (R10, R66). -/
def real (b : Pattern32) : ℚ := (realUnits b : ℚ) / (unitsPerDegree : ℚ)

/-- b32(q * 2^-F) of R63: the pattern of a value that binary32 holds exactly; a zero is +0.0 (decision D13). -/
def b32 (q : Int) (f : Nat) : Pattern32 :=
  if q = 0 then 0x00000000
  else
    let s : BitVec 1 := if q < 0 then 1#1 else 0#1
    let a := q.natAbs
    let e := Nat.log2 a
    s ++ BitVec.ofNat 8 (127 + e - f) ++ BitVec.ofNat 23 ((a <<< (23 - e)) &&& 0x7FFFFF)

end Sys2Proof.Machine
end

