-- ==== Sys2Proof/Machine/Codec.lean ====
section
/-! DEFINITION. The temperature codec: the generic decode in both of the spec's forms (40_temperature_codec.md R61, R62), the
threshold encode (R67 to R69), and the meanings of DECM, DECT and ENCT (R64, R65, R70). -/

namespace Sys2Proof.Machine

open Sys2Proof

/-- DEC(N, F, w) of R61 before its scaling by 2^-F: the signed integer in the word's significant field. -/
def decSteps (n : Nat) (w : DeviceWord) : Int := sval (sigField n w)

/-- DEC(N, F, w) of R61: `q * 2^-F` °C, an exact rational. -/
def decValue (n f : Nat) (w : DeviceWord) : ℚ := (decSteps n w : ℚ) / (2 : ℚ) ^ f

/-- DEC_SM(N, F, w) of R62, the source's sign-magnitude procedure, before its scaling by 2^-F: ip * 2^F + fp, negated for a
negative word. -/
def decStepsSignMag (n f : Nat) (w : DeviceWord) : Int :=
  if w[15] = false then
    let ip := (slice w 8 8 &&& 0x7F#8).toNat
    let fp := (slice w 0 8 >>> (8 - f)).toNat
    ((ip * 2 ^ f + fp : Nat) : Int)
  else
    let mag := (negField (sigField n w)).toNat
    let ip := mag >>> f
    let fp := mag &&& (2 ^ f - 1)
    (-((ip * 2 ^ f + fp : Nat) : Int))

/-- TOUT of a decode: b32(DEC(N, F, w)) (R64, R65). -/
def decodePattern (n f : Nat) (w : DeviceWord) : Pattern32 := b32 (decSteps n w) f

/-- ENCT's domain (R67): the finite values v with -128.0 ≤ v < 128.0. -/
def inDomain (b : Pattern32) : Bool :=
  classify b = .finite ∧ -(128 * (unitsPerDegree : Int)) ≤ realUnits b ∧ realUnits b < 128 * (unitsPerDegree : Int)

/-- t = trunc(v): the integer part, rounded toward zero (R68, R10). -/
def truncPart (v : Int) : Int := v.tdiv (unitsPerDegree : Int)

/-- fbit of R68 under ENC_FRAC_MODE = PRESENCE: 1 exactly when a non-zero remainder v - t is left. -/
def fracBit (v : Int) : BitVec 9 :=
  match Config.encFracMode with
  | .presence => if v - truncPart v * (unitsPerDegree : Int) ≠ 0 then 1#9 else 0#9

/-- m = (zext_9(|t|) << 1) | fbit (R69). -/
def encMagnitude (v : Int) : BitVec 9 := (BitVec.ofNat 9 (truncPart v).natAbs <<< 1) ||| fracBit v

/-- F9 of R69: two's-complement negation over the 9-bit field for v < 0, and -0.0 is not negative (decision D10). -/
def encField (v : Int) : BitVec 9 := if v < 0 then negField (encMagnitude v) else encMagnitude v

/-- W = zext_16(F9) << 7 (R69). -/
def encWord (v : Int) : DeviceWord := (encField v).setWidth 16 <<< 7

/-- DECM (R64): `result <- (TEMP, b32(DEC(11, 3, WIN)))`. CFG is neither read nor written. -/
def execDecm (s : State) : Host.Outcome State Fault Refusal :=
  .next (s.drive (.temp (decodePattern Config.nMain Config.fMain s.ports.win)))

/-- DECT (R65): `result <- (TEMP, b32(DEC(9, 1, WIN)))`. CFG is neither read nor written. -/
def execDect (s : State) : Host.Outcome State Fault Refusal :=
  .next (s.drive (.temp (decodePattern Config.nThr Config.fThr s.ports.win)))

/-- ENCT (R70): `result <- (WORD, zext_16(F9) << 7)` in the domain of R67, and EncodeDomain outside it. CFG is neither read nor
written. -/
def execEnct (s : State) : Host.Outcome State Fault Refusal :=
  if inDomain s.ports.tin then .next (s.drive (.word (encWord (realUnits s.ports.tin))))
  else raise (.encodeDomain s.ports.tin)

end Sys2Proof.Machine
end

