-- ==== Sys2Proof/Machine/Dispatch.lean ====
section
/-! DEFINITION. One arm per command: what executing it does to the state whose ports carry its operands. -/

namespace Sys2Proof.Machine

open Sys2Proof

/-- The meaning of a command (30_encoding.md R51). -/
def exec (i : Instr) (s : State) : Host.Outcome State Fault Refusal :=
  match i with
  | .decm => Sys2Proof.Machine.execDecm s
  | .dect => Sys2Proof.Machine.execDect s
  | .enct => Sys2Proof.Machine.execEnct s
  | .cfgdef => Sys2Proof.Machine.execCfgdef s
  | .setsd imm2 => Sys2Proof.Machine.execSetsd imm2 s
  | .setam imm2 => Sys2Proof.Machine.execSetam imm2 s
  | .setap imm2 => Sys2Proof.Machine.execSetap imm2 s
  | .setfq imm2 => Sys2Proof.Machine.execSetfq imm2 s
  | .getsd => Sys2Proof.Machine.execGetsd s
  | .getam => Sys2Proof.Machine.execGetam s
  | .getap => Sys2Proof.Machine.execGetap s
  | .getfq => Sys2Proof.Machine.execGetfq s
  | .cfgld => Sys2Proof.Machine.execCfgld s
  | .cfgrd => Sys2Proof.Machine.execCfgrd s

end Sys2Proof.Machine
end

