-- ==== Sys2Proof/Machine/Step.lean ====
section
/-! DEFINITION. One step: TCODEC executes the commands presented on CMD one at a time, in the order they are presented, each whole
before the next (10_state.md R29, 20_memory.md R37). -/

namespace Sys2Proof.Machine

open Sys2Proof

/-- One step. In the faulted state no command executes (R102). Otherwise the next command's ports are sampled (R25), its word is
decoded before any operand is examined (R103), a reserved word raises ReservedCommand (R53 to R55), and a decoded command has its
meaning. Where the host presents no command the block idles (log entry 3). -/
def step (s : State) : Host.Outcome State Fault Refusal :=
  match s.faultRecord with
  | some f => raise f
  | none =>
    match fetch s with
    | none => .next s.idle
    | some t =>
      match decode t.ports.cmd with
      | .error _ => raise (.reservedCommand t.ports.cmd)
      | .ok i => exec i t

/-- s with the command word w as the next one the host presents, so that the very next step runs it. It stands for the host starting
to drive CMD: the operands are those the host drives for its next command already, or else those the ports carry, and a fault
record of an earlier run is gone (log entry 2). -/
def State.withFetchWord (s : State) (nbits w : Nat) : State :=
  placeCommand { s with faultRecord := none } (BitVec.ofNat 8 (w % 2 ^ nbits))

end Sys2Proof.Machine
end

