-- ==== Sys2Proof/Machine/Assembler.lean ====
section
/-! DEFINITION. The assembly notation of 30_encoding.md R58 to R60: lines, the commands with operands they stand for, the
pseudo-instruction CFGBUILD, decimal temperature literals, and the reading of a line's text. Notation only (decision D25): the
machine sees the command words and the operand ports. -/

namespace Sys2Proof.Machine

open Sys2Proof

/-- A line of assembly (R58), or the pseudo-instruction of R60. -/
inductive AsmLine where
  | decm (word : DeviceWord)
  | dect (word : DeviceWord)
  | enct (temp : Pattern32)
  | cfgdef
  | setsd (bit : BitVec 1)
  | setam (bit : BitVec 1)
  | setap (bit : BitVec 1)
  | setfq (value : FieldValue)
  | getsd
  | getam
  | getap
  | getfq
  | cfgld (byte : Byte)
  | cfgrd
  /-- CFGBUILD sd, am, ap, fq (R60). -/
  | cfgbuild (sd am ap : BitVec 1) (fq : FieldValue)
deriving DecidableEq, Repr

/-- The five commands CFGBUILD expands to, in R60's order. -/
def cfgBuild (sd am ap : BitVec 1) (fq : FieldValue) : List Instr :=
  [.cfgdef, .setfq fq, .setap (ap.setWidth 2), .setam (am.setWidth 2), .setsd (sd.setWidth 2)]

/-- The command word of i, with the operand ports carrying what base carries. -/
def commandPorts (base : Ports) (i : Instr) : Ports := { base with cmd := encode i }

/-- The commands a line stands for, each with its operand on its port (R58). A port a command does not use is ignored (R25) and
carries what base carries. -/
def assemble (base : Ports) : AsmLine → List Ports
  | .decm word => [{ commandPorts base .decm with win := word }]
  | .dect word => [{ commandPorts base .dect with win := word }]
  | .enct temp => [{ commandPorts base .enct with tin := temp }]
  | .cfgdef => [commandPorts base .cfgdef]
  | .setsd bit => [commandPorts base (.setsd (bit.setWidth 2))]
  | .setam bit => [commandPorts base (.setam (bit.setWidth 2))]
  | .setap bit => [commandPorts base (.setap (bit.setWidth 2))]
  | .setfq value => [commandPorts base (.setfq value)]
  | .getsd => [commandPorts base .getsd]
  | .getam => [commandPorts base .getam]
  | .getap => [commandPorts base .getap]
  | .getfq => [commandPorts base .getfq]
  | .cfgld byte => [{ commandPorts base .cfgld with bin := byte }]
  | .cfgrd => [commandPorts base .cfgrd]
  | .cfgbuild sd am ap fq => (cfgBuild sd am ap fq).map (commandPorts base)

/-- `num / den` rounded to the nearest integer, ties to even. -/
def roundHalfEven (num den : Nat) : Nat :=
  let q := num / den
  let twice := 2 * (num % den)
  if twice < den then q
  else if den < twice then q + 1
  else q + q % 2

/-- The binary32 pattern nearest to `num / den`, ties to even (R59, general knowledge). With e the exponent of the result's unit,
2^(e-149), and n the rounded number of such units, the pattern's exponent and fraction bits are e * 2^23 + n, because binary32's
patterns count up through the magnitudes; a magnitude past the largest finite one is an infinity. A literal of zero keeps the sign
it is written with. For 25.9 this gives 0x41CF3333, the pattern R59 names; R59 prints that pattern's exact value as
25.9000000953674..., where R66 makes it 13579059 / 2^19 = 25.8999996185...: the spec conflicts with itself there, and following the
pattern and R66 is the model's choice (DESIGN CHOICE, log entry 16). -/
def nearest32 (negative : Bool) (num den : Nat) : Pattern32 :=
  let units := num * unitsPerDegree / den
  let e := if units < 2 ^ 24 then 0 else Nat.log2 units - 23
  let n := roundHalfEven (num * unitsPerDegree) (den * 2 ^ e)
  let magnitude := min (e * 2 ^ 23 + n) 0x7F800000
  (if negative then 1#1 else 0#1) ++ BitVec.ofNat 31 magnitude

/-- The value of a decimal digit. -/
def decDigit (c : Char) : Option Nat :=
  if '0' ≤ c ∧ c ≤ '9' then some (c.toNat - '0'.toNat) else none

/-- The value of a hexadecimal digit, in either case of letter. -/
def hexDigit (c : Char) : Option Nat :=
  if 'A' ≤ c ∧ c ≤ 'F' then some (c.toNat - 'A'.toNat + 10)
  else if 'a' ≤ c ∧ c ≤ 'f' then some (c.toNat - 'a'.toNat + 10)
  else decDigit c

/-- The number the digits write in the base given, after what acc holds already; no value where one is no digit. -/
def readDigits (base : Nat) (digit : Char → Option Nat) : Nat → List Char → Option Nat
  | acc, [] => some acc
  | acc, c :: cs =>
    match digit c with
    | some d => readDigits base digit (acc * base + d) cs
    | none => none

/-- A decimal number of one digit or more. -/
def readDecimal : List Char → Option Nat
  | [] => none
  | cs => readDigits 10 decDigit 0 cs

/-- A hexadecimal literal `0x..` (R8) that fits the width, of any number of digits (DESIGN CHOICE, log entry 11). -/
def readHex (width : Nat) : List Char → Option (BitVec width)
  | '0' :: 'x' :: c :: cs =>
    match readDigits 16 hexDigit 0 (c :: cs) with
    | some v => if v < 2 ^ width then some (BitVec.ofNat width v) else none
    | none => none
  | _ => none

/-- A decimal number that fits the width: R58's `<bit>` and `<0..3>`. Leading zeros are admitted (DESIGN CHOICE, log entry 11). -/
def readField (width : Nat) (cs : List Char) : Option (BitVec width) :=
  match readDecimal cs with
  | some v => if v < 2 ^ width then some (BitVec.ofNat width v) else none
  | none => none

/-- A decimal literal without its sign, as numerator and denominator: digits, and optionally a point and further digits. -/
def readFraction (cs : List Char) : Option (Nat × Nat) :=
  let whole := cs.takeWhile (· ≠ '.')
  match cs.dropWhile (· ≠ '.') with
  | [] => (readDecimal whole).map (·, 1)
  | _ :: tail =>
    match readDecimal whole, readDecimal tail with
    | some _, some _ => (readDecimal (whole ++ tail)).map (·, 10 ^ tail.length)
    | _, _ => none

/-- `<temp>` of ENCT: a binary32 hex pattern or a decimal literal (R58, R59). -/
def readTemp (cs : List Char) : Option Pattern32 :=
  match readHex 32 cs with
  | some b => some b
  | none =>
    match cs with
    | '-' :: rest => (readFraction rest).map fun r => nearest32 true r.1 r.2
    | _ => (readFraction cs).map fun r => nearest32 false r.1 r.2

/-- White space inside a line. -/
def isBlankChar (c : Char) : Bool := c == ' ' || c == '\t' || c == '\r'

/-- A text without the white space around it. -/
def trimBlanks (cs : List Char) : List Char :=
  ((cs.dropWhile isBlankChar).reverse.dropWhile isBlankChar).reverse

/-- The parts of a text between the separators, each without the white space around it. -/
def splitFields (sep : Char) : List Char → List (List Char)
  | [] => [[]]
  | c :: cs =>
    match splitFields sep cs with
    | [] => [[c]]
    | f :: fs => if c = sep then [] :: f :: fs else (c :: f) :: fs

/-- The operands of a line: separated by commas, none where nothing follows the mnemonic (R58). -/
def operandsOf (cs : List Char) : List (List Char) :=
  match trimBlanks cs with
  | [] => []
  | t => (splitFields ',' t).map trimBlanks

/-- The line of a mnemonic and its operands, where R58 or R60 gives that form. DESIGN CHOICE (log entry 11): R58 gives no literal form
for CFGLD's `<byte>`, and only a hexadecimal literal `0x..` is read there, as in R91's `CFGLD 0xE9`, no decimal and no `0b..`; R60
gives none for CFGBUILD's operands, and they are read as the setters' values are, decimal. -/
def lineOf (mnemonic : List Char) (operands : List (List Char)) : Option AsmLine :=
  match mnemonic, operands with
  | ['D', 'E', 'C', 'M'], [w] => (readHex 16 w).map .decm
  | ['D', 'E', 'C', 'T'], [w] => (readHex 16 w).map .dect
  | ['E', 'N', 'C', 'T'], [t] => (readTemp t).map .enct
  | ['C', 'F', 'G', 'D', 'E', 'F'], [] => some .cfgdef
  | ['S', 'E', 'T', 'S', 'D'], [b] => (readField 1 b).map .setsd
  | ['S', 'E', 'T', 'A', 'M'], [b] => (readField 1 b).map .setam
  | ['S', 'E', 'T', 'A', 'P'], [b] => (readField 1 b).map .setap
  | ['S', 'E', 'T', 'F', 'Q'], [q] => (readField 2 q).map .setfq
  | ['G', 'E', 'T', 'S', 'D'], [] => some .getsd
  | ['G', 'E', 'T', 'A', 'M'], [] => some .getam
  | ['G', 'E', 'T', 'A', 'P'], [] => some .getap
  | ['G', 'E', 'T', 'F', 'Q'], [] => some .getfq
  | ['C', 'F', 'G', 'L', 'D'], [b] => (readHex 8 b).map .cfgld
  | ['C', 'F', 'G', 'R', 'D'], [] => some .cfgrd
  | ['C', 'F', 'G', 'B', 'U', 'I', 'L', 'D'], [sd, am, ap, fq] =>
    match readField 1 sd, readField 1 am, readField 1 ap, readField 2 fq with
    | some sd, some am, some ap, some fq => some (.cfgbuild sd am ap fq)
    | _, _, _, _ => none
  | _, _ => none

/-- The reading of a line of text: no command where it holds only white space or a comment, which `;` starts; otherwise the
mnemonic, then its operands separated by commas (R58). The error is a line that is not of R58's or R60's form. -/
def readLine (cs : List Char) : Except Unit (List AsmLine) :=
  match trimBlanks (cs.takeWhile (· ≠ ';')) with
  | [] => .ok []
  | t =>
    match lineOf (t.takeWhile (! isBlankChar ·)) (operandsOf (t.dropWhile (! isBlankChar ·))) with
    | some l => .ok [l]
    | none => .error ()

/-- The lines of a text, one command per line (R58); an error where one of them is one. -/
def readLines : List (List Char) → Except Unit (List AsmLine)
  | [] => .ok []
  | cs :: rest =>
    match readLine cs, readLines rest with
    | .ok ls, .ok more => .ok (ls ++ more)
    | _, _ => .error ()

/-- The command stream of a program's text (R58 to R60). -/
def assembleText (base : Ports) (text : List Char) : Except Unit (List Ports) :=
  match readLines (splitFields '\n' text) with
  | .ok ls => .ok (ls.flatMap (assemble base))
  | .error e => .error e

end Sys2Proof.Machine
end

