-- ==== Sys2Proof/Machine/Framing.lean ====
section
/-! DEFINITION. The context of 20_memory.md section 5: which bus bytes carry which command's words. The facade and the transport are
outside the block and 00_scope.md R5 puts them out of scope; nothing here is a step of the machine. -/

namespace Sys2Proof.Machine

open Sys2Proof

/-- The external sensor device's registers (R41). -/
inductive DeviceReg where
  | temperature
  | configuration
  | hysteresis
  | overShutdown
deriving DecidableEq, Repr

/-- A register's address, the first byte the facade writes (R41). -/
def DeviceReg.address : DeviceReg → Byte
  | .temperature => 0x00
  | .configuration => 0x01
  | .hysteresis => 0x02
  | .overShutdown => 0x03

/-- A register's width in bytes (R41). -/
def DeviceReg.bytes : DeviceReg → Nat
  | .temperature => 2
  | .configuration => 1
  | .hysteresis => 2
  | .overShutdown => 2

/-- The Temperature register is read-only (R41, R42). -/
def DeviceReg.writable : DeviceReg → Bool
  | .temperature => false
  | .configuration => true
  | .hysteresis => true
  | .overShutdown => true

/-- The command that takes the bytes read from a register (R41). -/
def DeviceReg.readCommand : DeviceReg → Instr
  | .temperature => .decm
  | .configuration => .cfgld
  | .hysteresis => .dect
  | .overShutdown => .dect

/-- The register of an address; addresses 0x04 to 0xFF are not named (R41). -/
def deviceRegAt (address : Byte) : Option DeviceReg :=
  if address = 0x00 then some .temperature
  else if address = 0x01 then some .configuration
  else if address = 0x02 then some .hysteresis
  else if address = 0x03 then some .overShutdown
  else none

/-- The bytes a register read selects the register with (R42). -/
def selectFrame (r : DeviceReg) : List Byte := [r.address]

/-- The command the facade presents after a register read: the bytes read go unchanged to the matching decode, the first of two to
WIN[15:8] (R42). No command where the transport failed or the bytes are not the register's width (R45, R114). -/
def afterRead (r : DeviceReg) (base : Ports) (bytes : Option (List Byte)) : List Ports :=
  match bytes with
  | some [b] => if r.bytes = 1 then [{ base with cmd := encode r.readCommand, bin := b }] else []
  | some [msb, lsb] =>
    if r.bytes = 2 then [{ base with cmd := encode r.readCommand, win := wordOfBytes msb lsb }] else []
  | _ => []

/-- The one transport write of a threshold register: its address, WOUT[15:8], WOUT[7:0] (R43). -/
def writeThresholdFrame (r : DeviceReg) (wout : DeviceWord) : Option (List Byte) :=
  if r.writable ∧ r.bytes = 2 then some (r.address :: bytesOfWord wout) else none

/-- The one transport write of the Configuration register: its address, then the raw configuration byte (R43). -/
def writeConfigFrame (bout : Byte) : List Byte := [DeviceReg.configuration.address, bout]

end Sys2Proof.Machine
end

