-- ==== Sys2Proof/Machine/Run.lean ====
section
/-! DEFINITION. A run as a sequence of states in which a fault is recorded and final (60_exceptions.md R102, 70_reset_and_hazards.md
R118): step answers a fault as an outcome, and here that outcome becomes the faulted state. -/

namespace Sys2Proof.Machine

open Sys2Proof

/-- The state after one step of a run: the next state, or the faulted state with the fault recorded. A faulted state stays as it
is: no later command executes, and the fault is never cleared (R102). -/
def advance (s : State) : State :=
  match s.faultRecord with
  | some _ => s
  | none =>
    match step s with
    | .next t => t
    | .fault f => s.latchFault f
    | .refused _ => s

/-- The state after k steps of a run. -/
def advanceBy : Nat → State → State
  | 0, s => s
  | k + 1, s => advanceBy k (advance s)

/-- What each of k steps of a run drives on the result ports, in order (R26). -/
def results : Nat → State → List Result
  | 0, _ => []
  | k + 1, s => (advance s).result :: results k (advance s)

end Sys2Proof.Machine
end

