-- ==== Sys2Proof/Safety.lean ====
section
/-! DEFINITION. What a safe run is, and the invariants the statements name. A run is safe when no command of it falls in the inputs
the spec leaves unspecified (60_exceptions.md R101). -/

namespace Sys2Proof.Safety

open Sys2Proof Sys2Proof.Machine

/-- A command the spec gives an outcome: its word is not reserved and, for ENCT, TIN is in the domain of R67. -/
def safeCommand (p : Ports) : Bool :=
  match decode p.cmd with
  | .ok .enct => inDomain p.tin
  | .ok _ => true
  | .error _ => false

/-- The fault a command that is not safe raises (R101, R103). -/
def faultOf (p : Ports) : Fault :=
  match decode p.cmd with
  | .ok _ => .encodeDomain p.tin
  | .error _ => .reservedCommand p.cmd

/-- No fault is recorded and every command the host has yet to present is safe. -/
def SafeState (s : State) : Prop := s.faultRecord = none ∧ ∀ p ∈ s.pending, safeCommand p = true

/-- A result is in its value set (10_state.md R31, 40_temperature_codec.md R63, R80, 41_config_fields.md R87 to R92): a temperature
is a multiple of 0.125 °C in -128.0 to +127.875 and not the pattern of -0.0; a word's padding is zero; a field value or a byte is
the one CFG holds. -/
def ResultInSets (s : State) : Prop :=
  match s.result with
  | .noResult => True
  | .temp b => b ≠ 0x80000000 ∧ ∃ k : ℤ, -1024 ≤ k ∧ k ≤ 1023 ∧ real b = (k : ℚ) / 8
  | .word w => w &&& 0x007F#16 = 0x0000#16
  | .field v => ∃ f : Field, v = getField f s.cfg
  | .byte v => v = s.cfg

/-- CFG's reserved bits 7:5 are zero, and every CFGLD the host has yet to present loads a byte whose bits 7:5 are zero (R22, R99). -/
def ReservedBitsClear (s : State) : Prop :=
  rsvField s.cfg = 0#3 ∧ ∀ p ∈ s.pending, decode p.cmd = .ok .cfgld → rsvField p.bin = 0#3

/-- The field a setter writes, for a command that is one. -/
def setterField : Instr → Option Field
  | .setsd _ => some .sd
  | .setam _ => some .am
  | .setap _ => some .ap
  | .setfq _ => some .fq
  | .decm => none
  | .dect => none
  | .enct => none
  | .cfgdef => none
  | .getsd => none
  | .getam => none
  | .getap => none
  | .getfq => none
  | .cfgld => none
  | .cfgrd => none

/-- The commands that write CFG (R16). -/
def writesCfg : Instr → Bool
  | .cfgdef => true
  | .setsd _ => true
  | .setam _ => true
  | .setap _ => true
  | .setfq _ => true
  | .cfgld => true
  | .decm => false
  | .dect => false
  | .enct => false
  | .getsd => false
  | .getam => false
  | .getap => false
  | .getfq => false
  | .cfgrd => false

/-- Executing commands one after another on the operands the ports carry, to the first fault. -/
def execAll : List Instr → State → Host.Outcome State Fault Refusal
  | [], s => .next s
  | i :: is, s =>
    match exec i s with
    | .next t => execAll is t
    | .fault f => .fault f
    | .refused r => .refused r

/-- A program's commands as the host presents them: each command's word on CMD, the program's operands on the other ports. -/
def presented (prog : List (Instr × Ports)) : List Ports := prog.map fun c => { c.2 with cmd := encode c.1 }

/-- A program run command by command, with no word decoded: each command executes on its own operands and leaves the stream, to the
first fault (R37, R102). -/
def execProgram : List (Instr × Ports) → State → Host.Outcome State Fault Refusal
  | [], s => .next s
  | c :: cs, s =>
    match exec c.1 { s with ports := { c.2 with cmd := encode c.1 }, pending := s.pending.tail } with
    | .next t => execProgram cs t
    | .fault f => .fault f
    | .refused r => .refused r

end Sys2Proof.Safety
end

