-- ==== Sys2Proof/Certificates/Slice0/Obligations.lean ====
section
/-! DEFINITION. The statements for the provers. Each is about the machine in every state, reached by a run or not, unless it says
otherwise. A value of the spec is written out here from the spec's own formula, over real (R66) and the word's bits, rather than
through the function the meaning calls, wherever the two can differ. -/

open Sys2Proof Sys2Proof.Machine Sys2Proof.Safety

/-! ## Reset, the step and the faults -/

/-- 70_reset_and_hazards.md section 1: CFG = 0x00 at reset with all its fields 0, the four result ports have no value, no fault is
recorded. The spec's own decisions D4 and D5. -/
def Obligations.ResetStateIsAsGiven : Prop :=
  Sys2Proof.core.reset = State.reset ∧ State.reset.cfg = 0x00#8 ∧ (∀ f : Field, getField f State.reset.cfg = 0#2) ∧
  rsvField State.reset.cfg = 0#3 ∧ State.reset.tout = none ∧ State.reset.wout = none ∧ State.reset.fout = none ∧
  State.reset.bout = none ∧ State.reset.faultRecord = none

/-- 70_reset_and_hazards.md section 1 (decisions D4, D5): reset applied to a block in any state leaves CFG = 0x00 and no result port
with a value. That it leaves the ports and the stream, and that it clears the record of a faulted state, is the model's choice, log
entry 8 (DESIGN CHOICE): the spec's table gives the record none after reset, and says of a run that its fault is never cleared. -/
def Obligations.ResetClearsCfgInAnyState : Prop :=
  ∀ s : State, s.applyReset = { s with cfg := 0x00#8, result := .noResult, faultRecord := none } ∧
    s.applyReset.tout = none ∧ s.applyReset.wout = none ∧ s.applyReset.fout = none ∧ s.applyReset.bout = none

/-- 10_state.md sections 3 and 4, 20_memory.md section 4: a step samples the next command's ports once and executes the command its
word decodes to. The stream as a field of State is the model's (log entry 2). -/
def Obligations.StepRunsTheDecodedCommand : Prop :=
  ∀ (s : State) (p : Ports) (ps : List Ports) (i : Instr),
    s.faultRecord = none → s.pending = p :: ps → decode p.cmd = .ok i →
      step s = exec i { s with ports := p, pending := ps }

/-- 30_encoding.md section 4 and 60_exceptions.md section 1 (decisions D7, D8, D20): a step raises ReservedCommand, recording the
word, exactly for the words with RSV ≠ 0, with OP 0x0 or 0xF, with IMM2 ≠ 0 for a command without a field value, or with IMM2[1] = 1
for a 1-bit field, whatever the operand ports carry. -/
def Obligations.ReservedWordsFaultAndNoOthers : Prop :=
  ∀ (s : State) (p : Ports) (ps : List Ports), s.faultRecord = none → s.pending = p :: ps →
    (step s = .fault (.reservedCommand p.cmd) ↔
      p.cmd.extractLsb' 6 2 ≠ 0#2 ∨ p.cmd.extractLsb' 0 4 = 0x0#4 ∨ p.cmd.extractLsb' 0 4 = 0xF#4 ∨
      (p.cmd.extractLsb' 0 4 ∉ [0x5#4, 0x6#4, 0x7#4, 0x8#4] ∧ p.cmd.extractLsb' 4 2 ≠ 0#2) ∨
      (p.cmd.extractLsb' 0 4 ∈ [0x5#4, 0x6#4, 0x7#4] ∧ p.cmd[5] = true))

/-- The model's choice, log entry 3: where the host presents no command, a step changes nothing but that no result port has a
value. -/
def Obligations.NoCommandPresentedIdles : Prop :=
  ∀ s : State, s.faultRecord = none → s.pending = [] → step s = .next { s with result := .noResult }

/-- 60_exceptions.md section 1 (decision D19): in the faulted state no command executes, and the fault is never cleared. -/
def Obligations.FaultedStateIsFinal : Prop :=
  ∀ (s : State) (f : Fault), s.faultRecord = some f → step s = .fault f ∧ ∀ k : Nat, advanceBy k s = s

/-- 60_exceptions.md sections 1 and 3 (decision D19): a command that faults drives no result and changes no state before it faults;
its fault is recorded. -/
def Obligations.FaultIsRecordedAndChangesNothingElse : Prop :=
  ∀ (s : State) (f : Fault), s.faultRecord = none → step s = .fault f →
    advance s = { s with result := .noResult, faultRecord := some f }

/-! ## Encoding -/

/-- 30_encoding.md sections 3 and 5 (decision D6): one word of every family, written out bit by bit from the opcode map, and four
reserved words. -/
def Obligations.SpecWordsDecode : Prop :=
  decode 0b00000001#8 = .ok .decm ∧ decode 0b00000011#8 = .ok .enct ∧ decode 0b00000100#8 = .ok .cfgdef ∧
  decode 0b00010101#8 = .ok (.setsd 1#2) ∧ decode 0b00101000#8 = .ok (.setfq 2#2) ∧ decode 0b00001010#8 = .ok .getam ∧
  decode 0b00001101#8 = .ok .cfgld ∧ decode 0b00001110#8 = .ok .cfgrd ∧
  decode 0b00100101#8 = .error .immMisused ∧ decode 0b00010001#8 = .error .immMisused ∧
  decode 0b00001111#8 = .error .opUnassigned ∧ decode 0b11001000#8 = .error .rsvNotZero

/-- 30_encoding.md sections 3 and 4 (decisions D6 to D8): decoding the word of a well-formed command gives it back with its field
value, and a word that decodes is the one word of the well-formed command it decodes to. -/
def Obligations.DecodeAndEncodeAgree : Prop :=
  (∀ i : Instr, i.wf = true → decode (encode i) = .ok i) ∧
  ∀ (w : Byte) (i : Instr), decode w = .ok i → i.wf = true ∧ encode i = w

/-- 30_encoding.md section 4: of the 256 command words, 20 are valid. -/
def Obligations.TwentyWordsAreValid : Prop :=
  ((List.range 256).filter fun n => (decode (BitVec.ofNat 8 n)).toOption.isSome).length = 20

/-- 30_encoding.md section 3 (decision D6): a word matches a row of the opcode map, by the row's mask and match, exactly when it
decodes to the command of the row's mnemonic; so no two rows overlap and every word outside them is reserved. -/
def Obligations.OpcodeMapRowsAreTheDecoder : Prop :=
  (∀ (w : Byte) (r : OpcodeRow), r ∈ opcodeMap →
    (w &&& r.mask = r.matchBits ↔ ∃ i : Instr, decode w = .ok i ∧ i.mnemonic = r.mnemonic)) ∧
  ∀ (w : Byte) (i : Instr), decode w = .ok i → ∃ r ∈ opcodeMap, r.mnemonic = i.mnemonic

/-! ## The temperature codec -/

/-- R64, whole. -/
def Obligations.DecmDecodesTheMainWord : Prop :=
  encode .decm = 0x01#8 ∧ decode 0x01#8 = .ok .decm ∧
  (∀ s : State, exec .decm s = .next { s with result := .temp (b32 (s.ports.win.extractLsb' 5 11).toInt 3) }) ∧
  ∀ (s : State) (w : DeviceWord) (b : Pattern32),
    (w, b) ∈ [(0x001F#16, 0x00000000#32), (0x0000#16, 0x00000000#32), (0x8000#16, 0xC3000000#32),
      (0x7FE0#16, 0x42FFC000#32), (0xFFE0#16, 0xBE000000#32), (0xFFFF#16, 0xBE000000#32), (0xC900#16, 0xC25C0000#32)] →
    s.ports.win = w → exec .decm s = .next { s with result := .temp b }

/-- R65, whole. -/
def Obligations.DectDecodesTheThresholdWord : Prop :=
  encode .dect = 0x02#8 ∧ decode 0x02#8 = .ok .dect ∧
  (∀ s : State, exec .dect s = .next { s with result := .temp (b32 (s.ports.win.extractLsb' 7 9).toInt 1) }) ∧
  ∀ (s : State) (w : DeviceWord) (b : Pattern32),
    (w, b) ∈ [(0x007F#16, 0x00000000#32), (0x00FF#16, 0x3F000000#32), (0x8000#16, 0xC3000000#32),
      (0x7F80#16, 0x42FF0000#32), (0x7FFF#16, 0x42FF0000#32), (0xFF80#16, 0xBF000000#32), (0xFFFF#16, 0xBF000000#32),
      (0x7D00#16, 0x42FA0000#32)] →
    s.ports.win = w → exec .dect s = .next { s with result := .temp b }

/-- 40_temperature_codec.md section 1, 10_state.md section 5: the pattern a decode drives denotes exactly the signed field times the
step, and is never -0.0 (decision D13). -/
def Obligations.DecodedTemperatureIsExact : Prop :=
  ∀ s : State,
    (∃ b : Pattern32, exec .decm s = .next { s with result := .temp b } ∧ classify b = .finite ∧ b ≠ 0x80000000#32 ∧
      real b = ((s.ports.win.extractLsb' 5 11).toInt : ℚ) / 8) ∧
    ∃ b : Pattern32, exec .dect s = .next { s with result := .temp b } ∧ classify b = .finite ∧ b ≠ 0x80000000#32 ∧
      real b = ((s.ports.win.extractLsb' 7 9).toInt : ℚ) / 2

/-- 40_temperature_codec.md section 2, section 5: no value of the main layout is clamped or lost, so each of the 2048 multiples of
0.125 in -128.0 to +127.875 is what DECM drives for some word, whatever the padding. -/
def Obligations.EveryMainValueIsDecoded : Prop :=
  ∀ (k : ℤ) (pad : BitVec 5), -1024 ≤ k → k ≤ 1023 →
    ∀ s : State, s.ports.win = BitVec.ofInt 11 k ++ pad →
      ∃ b : Pattern32, exec .decm s = .next { s with result := .temp b } ∧ real b = (k : ℚ) / 8

/-- 40_temperature_codec.md section 1: the source's sign-magnitude procedure gives the value of the two's-complement formula for
every word, in both layouts. -/
def Obligations.SignMagnitudeProcedureAgrees : Prop :=
  ∀ w : DeviceWord, decStepsSignMag 11 3 w = (w.extractLsb' 5 11).toInt ∧ decStepsSignMag 9 1 w = (w.extractLsb' 7 9).toInt

/-- 40_temperature_codec.md section 5: both decodes are an arithmetic right shift of the word read as a signed number, and agree on
words whose padding is zero in both layouts. -/
def Obligations.DecodeIsAnArithmeticShift : Prop :=
  ∀ w : DeviceWord,
    decValue 11 3 w = (⌊(w.toInt : ℚ) / 2 ^ 5⌋ : ℚ) / 8 ∧ decValue 11 3 w = ((w &&& 0xFFE0#16).toInt : ℚ) / 256 ∧
    decValue 9 1 w = (⌊(w.toInt : ℚ) / 2 ^ 7⌋ : ℚ) / 2 ∧ decValue 9 1 w = ((w &&& 0xFF80#16).toInt : ℚ) / 256 ∧
    (w &&& 0x007F#16 = 0x0000#16 → decValue 11 3 w = decValue 9 1 w)

/-- 40_temperature_codec.md section 4 (general knowledge, decision D3): what a binary32 pattern denotes, by its sign, exponent and
fraction fields. -/
def Obligations.PatternDenotesItsValue : Prop :=
  ∀ b : Pattern32,
    (b.extractLsb' 23 8 = 0#8 → classify b = .finite ∧
      real b = (if b[31] then -1 else 1) * ((b.extractLsb' 0 23).toNat : ℚ) * (2 : ℚ) ^ (-149 : ℤ)) ∧
    (b.extractLsb' 23 8 ≠ 0#8 → b.extractLsb' 23 8 ≠ 255#8 → classify b = .finite ∧
      real b = (if b[31] then -1 else 1) * ((2 : ℚ) ^ 23 + ((b.extractLsb' 0 23).toNat : ℚ)) *
        (2 : ℚ) ^ (((b.extractLsb' 23 8).toNat : ℤ) - 150)) ∧
    (b.extractLsb' 23 8 = 255#8 → b.extractLsb' 0 23 = 0#23 → classify b = .infinite) ∧
    (b.extractLsb' 23 8 = 255#8 → b.extractLsb' 0 23 ≠ 0#23 → classify b = .nan)

/-- 40_temperature_codec.md section 4, on the spec's own decisions D9 (the domain and the fault outside it), D10 (-0.0 is not negative)
and D11 (the presence-based fraction bit), log entry 12: ENCT drives the word of the truncated value and the presence bit for every finite TIN in [-128, 128), and raises
EncodeDomain, recording TIN, for every other TIN; its corner cases and example. The field is computed in the integers, where
`((~m) + 1) & 0x1FF` of a 9-bit m is `(512 - m) mod 512`. -/
def Obligations.EnctEncodesOrFaults : Prop :=
  encode .enct = 0x03#8 ∧ decode 0x03#8 = .ok .enct ∧
  (∀ s : State, classify s.ports.tin = .finite → -128 ≤ real s.ports.tin → real s.ports.tin < 128 →
    ∃ (t : ℤ) (m : ℕ),
      t = (if real s.ports.tin < 0 then ⌈real s.ports.tin⌉ else ⌊real s.ports.tin⌋) ∧
      m = 2 * t.natAbs + (if real s.ports.tin = (t : ℚ) then 0 else 1) ∧
      exec .enct s = .next { s with
        result := .word (BitVec.ofNat 16 (128 * (if real s.ports.tin < 0 then (512 - m) % 512 else m))) }) ∧
  (∀ s : State, classify s.ports.tin ≠ .finite ∨ real s.ports.tin < -128 ∨ 128 ≤ real s.ports.tin →
    exec .enct s = .fault (.encodeDomain s.ports.tin)) ∧
  ∀ (s : State) (b : Pattern32) (w : DeviceWord),
    (b, w) ∈ [(0x00000000#32, 0x0000#16), (0x80000000#32, 0x0000#16), (0x00000001#32, 0x0080#16), (0x80000001#32, 0xFF80#16),
      (0x42FF0000#32, 0x7F80#16), (0x42FFCCCD#32, 0x7F80#16), (0x42FFFFFF#32, 0x7F80#16), (0xC3000000#32, 0x8000#16),
      (0xC2FFCCCD#32, 0x8080#16), (0x41CA0000#32, 0x1980#16), (0x41CF3333#32, 0x1980#16), (0xC25C0000#32, 0xC900#16)] →
    s.ports.tin = b → exec .enct s = .next { s with result := .word w }

/-- 40_temperature_codec.md section 5 (decisions D9, D11): for every value of the domain, the word ENCT drives decodes to the sign of v times its
truncated magnitude plus a half where v is not an integer. -/
def Obligations.EncodedWordDecodesToTheTruncatedStep : Prop :=
  ∀ s : State, classify s.ports.tin = .finite → -128 ≤ real s.ports.tin → real s.ports.tin < 128 →
    ∃ w : DeviceWord, exec .enct s = .next { s with result := .word w } ∧
      decValue 9 1 w = (if real s.ports.tin < 0 then -1 else 1) *
        ((⌊|real s.ports.tin|⌋ : ℚ) + if (⌊|real s.ports.tin|⌋ : ℚ) = |real s.ports.tin| then 0 else 1 / 2)

/-- 40_temperature_codec.md section 5: each of the 512 multiples of 0.5 in [-128.0, 127.5] comes back, as a value and as the pattern
DECT drives, from ENCT and then DECT. -/
def Obligations.HalfStepsRoundTrip : Prop :=
  ∀ (k : ℤ), -256 ≤ k → k ≤ 255 → ∀ s : State, s.ports.tin = b32 k 1 →
    real (b32 k 1) = (k : ℚ) / 2 ∧
    ∃ w : DeviceWord, exec .enct s = .next { s with result := .word w } ∧ decValue 9 1 w = (k : ℚ) / 2 ∧
      ∀ u : State, u.ports.win = w → exec .dect u = .next { u with result := .temp (b32 k 1) }

/-- 40_temperature_codec.md section 5: for v > 0 in the domain, the negated pattern is in the domain and its word decodes to the
negated value. -/
def Obligations.EncodeIsSignSymmetric : Prop :=
  ∀ s u : State, classify s.ports.tin = .finite → 0 < real s.ports.tin → real s.ports.tin < 128 →
    u.ports.tin = s.ports.tin ^^^ 0x80000000#32 →
    ∃ w v : DeviceWord, exec .enct s = .next { s with result := .word w } ∧
      exec .enct u = .next { u with result := .word v } ∧ decValue 9 1 v = -decValue 9 1 w

/-- R74, whole: ENCT is lossless exactly on the multiples of 0.5, and moves every other value of the domain by less than 0.5. -/
def Obligations.EncodeIsLosslessOnHalfStepsOnly : Prop :=
  ∀ s : State, classify s.ports.tin = .finite → -128 ≤ real s.ports.tin → real s.ports.tin < 128 →
    ∃ w : DeviceWord, exec .enct s = .next { s with result := .word w } ∧
      (decValue 9 1 w = real s.ports.tin ↔
        ∃ k : ℤ, -256 ≤ k ∧ k ≤ 255 ∧ real s.ports.tin = (k : ℚ) / 2) ∧
      |decValue 9 1 w - real s.ports.tin| < 1 / 2

/-- 40_temperature_codec.md section 5: encoding what DECT drives for a word gives the word back with its padding zeroed, for every
word. -/
def Obligations.ReencodingZeroesThePadding : Prop :=
  ∀ s : State, ∃ b : Pattern32, exec .dect s = .next { s with result := .temp b } ∧
    ∀ u : State, u.ports.tin = b → exec .enct u = .next { u with result := .word (s.ports.win &&& 0xFF80#16) }

/-- 40_temperature_codec.md section 5: the words ENCT drives are exactly the 512 threshold words with zero padding. -/
def Obligations.EncodedWordsAreTheThresholdWords : Prop :=
  (∀ s t : State, exec .enct s = .next t → ∃ f : BitVec 9, t = { s with result := .word (f ++ 0#7) }) ∧
  ∀ f : BitVec 9, ∃ b : Pattern32, ∀ s : State, s.ports.tin = b → exec .enct s = .next { s with result := .word (f ++ 0#7) }

/-- R78, whole: DECM and DECT depend on WIN alone and ENCT on TIN alone, whatever CFG and every earlier command left, and each
changes its result alone. -/
def Obligations.CodecCommandsArePure : Prop :=
  ∀ (i : Instr) (s u : State),
    ((i = .decm ∨ i = .dect) ∧ s.ports.win = u.ports.win) ∨ (i = .enct ∧ s.ports.tin = u.ports.tin) →
    (∃ r : Result, exec i s = .next { s with result := r } ∧ exec i u = .next { u with result := r }) ∨
    ∃ f : Fault, exec i s = .fault f ∧ exec i u = .fault f

/-! ## The configuration byte

Where a statement ranges over every setter term, a term with IMM2[1] = 1 for a 1-bit field is among them; no word decodes to one
(R55), and that it acts on IMM2[0] is the model's choice, log entry 10 (DESIGN CHOICE). -/

/-- R82, whole. -/
def Obligations.CfgdefStartsFresh : Prop :=
  encode .cfgdef = 0x04#8 ∧ decode 0x04#8 = .ok .cfgdef ∧
  (∀ s : State, exec .cfgdef s = .next { s with cfg := 0x00#8, result := .noResult }) ∧
  ∀ s t : State, exec .cfgdef s = .next t → t.cfg.extractLsb' 5 3 = 0#3 ∧ exec .cfgdef t = .next t

/-- 41_config_fields.md section 3, SETSD: the words, the effect, the corner cases, the reserved words and the example. The effect for
IMM2 = 2 and 3, which have no word, is that of IMM2[0]: the model's choice, log entry 10 (DESIGN CHOICE); for IMM2 = 0 and 1 it is
the spec's. -/
def Obligations.SetsdOrsBitZero : Prop :=
  (∀ sd : BitVec 1, encode (.setsd (0#1 ++ sd)) = 0x05#8 ||| (sd.setWidth 8 <<< 4)) ∧
  (∀ (imm2 : FieldValue) (s : State), exec (.setsd imm2) s =
    .next { s with cfg := s.cfg ||| (imm2.extractLsb' 0 1).setWidth 8, result := .noResult }) ∧
  (∀ s : State, exec (.setsd 0#2) s = .next { s with result := .noResult }) ∧
  (∀ (imm2 : FieldValue) (s t : State), exec (.setsd imm2) s = .next t → t.cfg &&& 0xFE#8 = s.cfg &&& 0xFE#8) ∧
  (∀ s : State, s.cfg = 0x10#8 → exec (.setsd 1#2) s = .next { s with cfg := 0x11#8, result := .noResult }) ∧
  ∀ (s : State) (p : Ports) (ps : List Ports), s.faultRecord = none → s.pending = p :: ps → p.cmd.extractLsb' 0 4 = 0x5#4 →
    p.cmd[5] = true ∨ p.cmd.extractLsb' 6 2 ≠ 0#2 → step s = .fault (.reservedCommand p.cmd)

/-- 41_config_fields.md section 3, SETAM: the words, the effect, the corner cases, the reserved words and the example. The effect for
IMM2 = 2 and 3, which have no word, is that of IMM2[0]: the model's choice, log entry 10 (DESIGN CHOICE); for IMM2 = 0 and 1 it is
the spec's. -/
def Obligations.SetamOrsBitOne : Prop :=
  (∀ am : BitVec 1, encode (.setam (0#1 ++ am)) = 0x06#8 ||| (am.setWidth 8 <<< 4)) ∧
  (∀ (imm2 : FieldValue) (s : State), exec (.setam imm2) s =
    .next { s with cfg := s.cfg ||| ((imm2.extractLsb' 0 1).setWidth 8 <<< 1), result := .noResult }) ∧
  (∀ s : State, exec (.setam 0#2) s = .next { s with result := .noResult }) ∧
  (∀ (imm2 : FieldValue) (s t : State), exec (.setam imm2) s = .next t → t.cfg &&& 0xFD#8 = s.cfg &&& 0xFD#8) ∧
  (∀ s : State, s.cfg = 0x00#8 → exec (.setam 1#2) s = .next { s with cfg := 0x02#8, result := .noResult }) ∧
  ∀ (s : State) (p : Ports) (ps : List Ports), s.faultRecord = none → s.pending = p :: ps → p.cmd.extractLsb' 0 4 = 0x6#4 →
    p.cmd[5] = true ∨ p.cmd.extractLsb' 6 2 ≠ 0#2 → step s = .fault (.reservedCommand p.cmd)

/-- 41_config_fields.md section 3, SETAP: the words, the effect, the corner cases, the reserved words and the example. The effect for
IMM2 = 2 and 3, which have no word, is that of IMM2[0]: the model's choice, log entry 10 (DESIGN CHOICE); for IMM2 = 0 and 1 it is
the spec's. -/
def Obligations.SetapOrsBitTwo : Prop :=
  (∀ ap : BitVec 1, encode (.setap (0#1 ++ ap)) = 0x07#8 ||| (ap.setWidth 8 <<< 4)) ∧
  (∀ (imm2 : FieldValue) (s : State), exec (.setap imm2) s =
    .next { s with cfg := s.cfg ||| ((imm2.extractLsb' 0 1).setWidth 8 <<< 2), result := .noResult }) ∧
  (∀ s : State, exec (.setap 0#2) s = .next { s with result := .noResult }) ∧
  (∀ (imm2 : FieldValue) (s t : State), exec (.setap imm2) s = .next t → t.cfg &&& 0xFB#8 = s.cfg &&& 0xFB#8) ∧
  (∀ s : State, s.cfg = 0x10#8 → exec (.setap 1#2) s = .next { s with cfg := 0x14#8, result := .noResult }) ∧
  ∀ (s : State) (p : Ports) (ps : List Ports), s.faultRecord = none → s.pending = p :: ps → p.cmd.extractLsb' 0 4 = 0x7#4 →
    p.cmd[5] = true ∨ p.cmd.extractLsb' 6 2 ≠ 0#2 → step s = .fault (.reservedCommand p.cmd)

/-- R86, whole. -/
def Obligations.SetfqOrsBitsThreeAndFour : Prop :=
  (∀ fq : FieldValue, encode (.setfq fq) = 0x08#8 ||| (fq.setWidth 8 <<< 4)) ∧
  (∀ (fq : FieldValue) (s : State), exec (.setfq fq) s =
    .next { s with cfg := s.cfg ||| (fq.setWidth 8 <<< 3), result := .noResult }) ∧
  (∀ s : State, exec (.setfq 0#2) s = .next { s with result := .noResult }) ∧
  (∀ (fq : FieldValue) (s t : State), exec (.setfq fq) s = .next t →
    t.cfg.extractLsb' 3 2 = s.cfg.extractLsb' 3 2 ||| fq ∧ t.cfg &&& 0xE7#8 = s.cfg &&& 0xE7#8) ∧
  (∀ s : State, s.cfg = 0x00#8 → exec (.setfq 2#2) s = .next { s with cfg := 0x10#8, result := .noResult }) ∧
  ∀ (s : State) (p : Ports) (ps : List Ports), s.faultRecord = none → s.pending = p :: ps → p.cmd.extractLsb' 0 4 = 0x8#4 →
    (step s = .fault (.reservedCommand p.cmd) ↔ p.cmd.extractLsb' 6 2 ≠ 0#2)

/-- R87, R88 and R89, whole: each drives its one bit of CFG, zero-extended, changes nothing else, and depends on no other bit. -/
def Obligations.OneBitGettersReadTheirBit : Prop :=
  encode .getsd = 0x09#8 ∧ encode .getam = 0x0A#8 ∧ encode .getap = 0x0B#8 ∧
  decode 0x09#8 = .ok .getsd ∧ decode 0x0A#8 = .ok .getam ∧ decode 0x0B#8 = .ok .getap ∧
  (∀ s : State,
    exec .getsd s = .next { s with result := .field (0#1 ++ s.cfg.extractLsb' 0 1) } ∧
    exec .getam s = .next { s with result := .field (0#1 ++ s.cfg.extractLsb' 1 1) } ∧
    exec .getap s = .next { s with result := .field (0#1 ++ s.cfg.extractLsb' 2 1) }) ∧
  (∀ s : State, s.cfg = 0x17#8 → exec .getsd s = .next { s with result := .field 1#2 }) ∧
  (∀ s : State, s.cfg = 0x02#8 → exec .getam s = .next { s with result := .field 1#2 }) ∧
  ∀ s : State, s.cfg = 0x14#8 → exec .getap s = .next { s with result := .field 1#2 }

/-- 41_config_fields.md section 4 (decision D14): GETFQ drives the 2-bit code CFG[4:3], which stands for 1, 2, 4 or 8 faults. -/
def Obligations.GetfqReadsTheCode : Prop :=
  encode .getfq = 0x0C#8 ∧ decode 0x0C#8 = .ok .getfq ∧
  (∀ s : State, exec .getfq s = .next { s with result := .field (s.cfg.extractLsb' 3 2) }) ∧
  faultCount 0#2 = 1 ∧ faultCount 1#2 = 2 ∧ faultCount 2#2 = 4 ∧ faultCount 3#2 = 8

/-- 41_config_fields.md section 5 (decision D12): CFGLD loads all 8 bits of BIN, the reserved ones unchanged. -/
def Obligations.CfgldLoadsTheWholeByte : Prop :=
  encode .cfgld = 0x0D#8 ∧ decode 0x0D#8 = .ok .cfgld ∧
  (∀ s : State, exec .cfgld s = .next { s with cfg := s.ports.bin, result := .noResult }) ∧
  ∀ s : State, s.ports.bin = 0xE9#8 → ∃ t : State, exec .cfgld s = .next t ∧ t.cfg = 0xE9#8 ∧
    exec .getsd t = .next { t with result := .field 1#2 } ∧ exec .getfq t = .next { t with result := .field 1#2 }

/-- R92, whole: CFGRD drives CFG and changes nothing else; the reserved bits a CFGLD stored are returned, and after CFGDEF and setters
only they are zero; the facade sends 0x01 and the byte. -/
def Obligations.CfgrdReadsTheWholeByte : Prop :=
  encode .cfgrd = 0x0E#8 ∧ decode 0x0E#8 = .ok .cfgrd ∧
  (∀ s : State, exec .cfgrd s = .next { s with result := .byte s.cfg }) ∧
  (∀ s t : State, exec .cfgld s = .next t → exec .cfgrd t = .next { t with result := .byte s.ports.bin }) ∧
  (∀ (is : List Instr), (∀ i ∈ is, setterField i ≠ none) → ∀ s : State, ∃ (t : State) (b : Byte),
    execAll (.cfgdef :: is) s = .next t ∧ exec .cfgrd t = .next { t with result := .byte b } ∧ b.extractLsb' 5 3 = 0#3) ∧
  ∀ s : State, s.cfg = 0x14#8 → exec .cfgrd s = .next { s with result := .byte 0x14#8 } ∧
    writeConfigFrame 0x14#8 = [0x01#8, 0x14#8]

/-- R81, whole: a setter ORs its value, masked to the field's width and shifted to the field's position, into CFG, and never clears
a bit. -/
def Obligations.SettersOrAndNeverClear : Prop :=
  (∀ (imm2 : FieldValue) (s : State),
    exec (.setsd imm2) s = .next { s with cfg := s.cfg ||| ((imm2.setWidth 8 &&& (2 ^ 1 - 1)) <<< 0), result := .noResult } ∧
    exec (.setam imm2) s = .next { s with cfg := s.cfg ||| ((imm2.setWidth 8 &&& (2 ^ 1 - 1)) <<< 1), result := .noResult } ∧
    exec (.setap imm2) s = .next { s with cfg := s.cfg ||| ((imm2.setWidth 8 &&& (2 ^ 1 - 1)) <<< 2), result := .noResult } ∧
    exec (.setfq imm2) s = .next { s with cfg := s.cfg ||| ((imm2.setWidth 8 &&& (2 ^ 2 - 1)) <<< 3), result := .noResult }) ∧
  ∀ (i : Instr) (s t : State), setterField i ≠ none → exec i s = .next t → t.cfg &&& s.cfg = s.cfg

/-- 41_config_fields.md section 6: a setter leaves in its field the OR of the field's old value and its own, so two setters of one
field leave the OR of both values there. For SD, AM and AP a value with bit 1 set has no word; that its setter acts on bit 0 alone,
the mask `&&& 1#2` here, is the model's choice, log entry 10 (DESIGN CHOICE). -/
def Obligations.SettersOfOneFieldAccumulate : Prop :=
  ∀ (a b : FieldValue) (s : State),
    (∃ t : State, execAll [.setfq a, .setfq b] s = .next t ∧ getField .fq t.cfg = getField .fq s.cfg ||| (a ||| b)) ∧
    (∃ t : State, execAll [.setsd a, .setsd b] s = .next t ∧ getField .sd t.cfg = getField .sd s.cfg ||| ((a ||| b) &&& 1#2)) ∧
    (∃ t : State, execAll [.setam a, .setam b] s = .next t ∧ getField .am t.cfg = getField .am s.cfg ||| ((a ||| b) &&& 1#2)) ∧
    ∃ t : State, execAll [.setap a, .setap b] s = .next t ∧ getField .ap t.cfg = getField .ap s.cfg ||| ((a ||| b) &&& 1#2)

/-- 41_config_fields.md section 6: a setter of one field completes and leaves the other three fields and the reserved bits
unchanged. -/
def Obligations.SettersLeaveOtherFieldsAlone : Prop :=
  ∀ (i : Instr) (f g : Field) (s : State), setterField i = some f → g ≠ f →
    ∃ t : State, exec i s = .next t ∧ getField g t.cfg = getField g s.cfg ∧ rsvField t.cfg = rsvField s.cfg

/-- 41_config_fields.md section 6: from CFGDEF, one setter per field in any order reaches every combination of the four fields, and
each getter then drives its field's value. -/
def Obligations.EveryConfigurationIsReachedInAnyOrder : Prop :=
  ∀ (sd am ap : BitVec 1) (fq : FieldValue) (is : List Instr),
    is.Perm [.setsd (0#1 ++ sd), .setam (0#1 ++ am), .setap (0#1 ++ ap), .setfq fq] →
    ∀ s : State, ∃ t : State, execAll (.cfgdef :: is) s = .next t ∧ t.cfg = 0#3 ++ fq ++ ap ++ am ++ sd ∧
      exec .getsd t = .next { t with result := .field (0#1 ++ sd) } ∧
      exec .getam t = .next { t with result := .field (0#1 ++ am) } ∧
      exec .getap t = .next { t with result := .field (0#1 ++ ap) } ∧
      exec .getfq t = .next { t with result := .field fq }

/-- R95, whole: for each field and each legal value, CFGDEF, then the field's setter, then its getter gives the value; after another
setter of the same field it does so only when the new value covers the old bits. -/
def Obligations.GetAfterSetFromDefault : Prop :=
  (∀ (v : BitVec 1) (s : State),
    (∃ t : State, execAll [.cfgdef, .setsd (0#1 ++ v), .getsd] s = .next t ∧ t.fout = some (0#1 ++ v)) ∧
    (∃ t : State, execAll [.cfgdef, .setam (0#1 ++ v), .getam] s = .next t ∧ t.fout = some (0#1 ++ v)) ∧
    ∃ t : State, execAll [.cfgdef, .setap (0#1 ++ v), .getap] s = .next t ∧ t.fout = some (0#1 ++ v)) ∧
  (∀ (v : FieldValue) (s : State),
    ∃ t : State, execAll [.cfgdef, .setfq v, .getfq] s = .next t ∧ t.fout = some v) ∧
  (∀ (a v : BitVec 1) (s : State),
    (∃ t : State, execAll [.cfgdef, .setsd (0#1 ++ a), .setsd (0#1 ++ v), .getsd] s = .next t ∧
      (t.fout = some (0#1 ++ v) ↔ a ||| v = v)) ∧
    (∃ t : State, execAll [.cfgdef, .setam (0#1 ++ a), .setam (0#1 ++ v), .getam] s = .next t ∧
      (t.fout = some (0#1 ++ v) ↔ a ||| v = v)) ∧
    ∃ t : State, execAll [.cfgdef, .setap (0#1 ++ a), .setap (0#1 ++ v), .getap] s = .next t ∧
      (t.fout = some (0#1 ++ v) ↔ a ||| v = v)) ∧
  ∀ (a v : FieldValue) (s : State),
    ∃ t : State, execAll [.cfgdef, .setfq a, .setfq v, .getfq] s = .next t ∧ (t.fout = some v ↔ a ||| v = v)

/-- 41_config_fields.md section 6: the setters of a program may be presented in any order. -/
def Obligations.SettersMayBeReordered : Prop :=
  ∀ (is js : List Instr), (∀ i ∈ is, setterField i ≠ none) → is.Perm js →
    ∀ s : State, ∃ t : State, execAll is s = .next t ∧ execAll js s = .next t

/-- 41_config_fields.md section 6: from CFGDEF, setters alone never pass 0x1F, so they never set a reserved bit. -/
def Obligations.SettersFromDefaultStayBelowReservedBits : Prop :=
  ∀ (is : List Instr), (∀ i ∈ is, setterField i ≠ none) → ∀ s : State,
    ∃ t : State, execAll (.cfgdef :: is) s = .next t ∧ t.cfg ≤ 0x1F#8

/-- 30_encoding.md section 5 (decision D25): the five commands of CFGBUILD leave the byte of the four fields in CFG, whatever it held
before, and the words presented are those of the expansion. -/
def Obligations.CfgBuildBuildsTheByte : Prop :=
  ∀ (sd am ap : BitVec 1) (fq : FieldValue),
    (∀ s : State, execAll (cfgBuild sd am ap fq) s = .next { s with
      cfg := (fq.setWidth 8 <<< 3) ||| (ap.setWidth 8 <<< 2) ||| (am.setWidth 8 <<< 1) ||| sd.setWidth 8, result := .noResult }) ∧
    ∀ base : Ports, (assemble base (.cfgbuild sd am ap fq)).map Ports.cmd =
      [0x04#8, 0x08#8 ||| (fq.setWidth 8 <<< 4), 0x07#8 ||| (ap.setWidth 8 <<< 4), 0x06#8 ||| (am.setWidth 8 <<< 4),
        0x05#8 ||| (sd.setWidth 8 <<< 4)]

/-! ## Rules of the whole machine -/

/-- 10_state.md section 1 and 30_encoding.md section 3: what no command changes (the sampled ports, the host's stream, the fault
record), that CFG is changed by no command but CFGDEF, the setters and CFGLD, and that exactly these drive no result. -/
def Obligations.CommandsChangeOnlyCfgAndResult : Prop :=
  ∀ (i : Instr) (s t : State), exec i s = .next t →
    t = { s with cfg := t.cfg, result := t.result } ∧ (writesCfg i = false → t.cfg = s.cfg) ∧
    (writesCfg i = true ↔ t.result = .noResult)

/-- R23, whole: what a command other than the four getters and CFGRD drives, and whether it faults, is the same whatever CFG holds;
in particular a shut-down sensor's byte does not stop the codec. -/
def Obligations.CfgHasNoEffectInside : Prop :=
  ∀ (i : Instr) (s : State) (b : Byte), i ∉ [.getsd, .getam, .getap, .getfq, .cfgrd] →
    (∃ t u : State, exec i s = .next t ∧ exec i { s with cfg := b } = .next u ∧ t.result = u.result) ∨
    ∃ f : Fault, exec i s = .fault f ∧ exec i { s with cfg := b } = .fault f

/-- 60_exceptions.md section 1: every command completes in every state, ENCT on the finite values of [-128, 128); no command is
refused. -/
def Obligations.EveryCommandCompletes : Prop :=
  (∀ (i : Instr) (s : State), i ≠ .enct → ∃ t : State, exec i s = .next t) ∧
  (∀ s : State, classify s.ports.tin = .finite → -128 ≤ real s.ports.tin → real s.ports.tin < 128 →
    ∃ t : State, exec .enct s = .next t) ∧
  ∀ (s : State) (r : Refusal), step s ≠ .refused r

/-- 20_memory.md section 3: a command issued twice in a row with the same operands gives the same result and the same CFG as issued
once. -/
def Obligations.CommandsAreIdempotent : Prop :=
  ∀ (i : Instr) (s t : State), exec i s = .next t → exec i t = .next t

/-- An invariant: what a step drives is in the value set of its kind, or is the value CFG holds (10_state.md section 5,
40_temperature_codec.md sections 1 and 5, 41_config_fields.md sections 4 and 5; decision D13 for the sign of zero). -/
def Obligations.StepKeepsResultInSets : Prop :=
  ∀ s t : State, ResultInSets s → step s = .next t → ResultInSets t

/-- The result invariant holds after reset. -/
def Obligations.ResetResultInSets : Prop := ResultInSets State.reset

/-- An invariant: while every CFGLD of the stream loads a byte with bits 7:5 zero, CFG's reserved bits stay zero (10_state.md section
2; decision D12 for CFGLD). -/
def Obligations.StepKeepsReservedBitsClear : Prop :=
  ∀ s t : State, ReservedBitsClear s → step s = .next t → ReservedBitsClear t

/-- The reserved-bits invariant holds after reset, and in a reset block given any stream without a CFGLD (D5). -/
def Obligations.ResetReservedBitsClear : Prop :=
  ReservedBitsClear State.reset ∧
  ∀ ps : List Ports, (∀ p ∈ ps, p.cmd ≠ 0x0D#8) → ReservedBitsClear (State.reset.present ps)

/-- 60_exceptions.md section 1: from any state with no fault recorded and only safe commands to come, a run of any length goes on,
executes one command a step in the order presented, and stays safe. That the run goes on past the end of the stream, where a step
without a command idles, is the model's choice, log entry 3 (DESIGN CHOICE). -/
def Obligations.SafeStreamsNeverFault : Prop :=
  ∀ s : State, SafeState s → ∀ k : Nat, ∃ t : State,
    Host.Core.run Sys2Proof.core k s = .next t ∧ SafeState t ∧ t.pending = s.pending.drop k

/-- 60_exceptions.md section 1 (decisions D19, D20): the first command of a stream that is not safe ends the run with its fault, and
the commands after it never execute. -/
def Obligations.FirstUnsafeCommandEndsTheRun : Prop :=
  ∀ (s : State) (before after : List Ports) (p : Ports), s.faultRecord = none → s.pending = before ++ p :: after →
    (∀ q ∈ before, safeCommand q = true) → safeCommand p = false →
    ∀ k : Nat, Host.Core.run Sys2Proof.core (before.length + 1 + k) s = .fault (faultOf p)

/-- 20_memory.md section 4 with 30_encoding.md section 3: a program of well-formed commands, presented as their words with their
operands, runs as the commands themselves do, one after another, to the end or the first fault. -/
def Obligations.PresentedProgramRunsAsItsCommands : Prop :=
  ∀ (prog : List (Instr × Ports)) (later : List Ports) (s : State), s.faultRecord = none →
    (∀ c ∈ prog, c.1.wf = true) → s.pending = presented prog ++ later →
    Host.Core.run Sys2Proof.core prog.length s = execProgram prog s

/-! ## Context and notation -/

/-- 20_memory.md sections 2 and 5: a device word's first byte on the bus is its high byte, in both directions; a threshold write
sends the address and then the word so. -/
def Obligations.WordsTravelMostSignificantByteFirst : Prop :=
  (∀ msb lsb : Byte, (wordOfBytes msb lsb).extractLsb' 8 8 = msb ∧ (wordOfBytes msb lsb).extractLsb' 0 8 = lsb ∧
    bytesOfWord (wordOfBytes msb lsb) = [msb, lsb]) ∧
  (∀ w : DeviceWord, writeThresholdFrame .hysteresis w = some [0x02#8, w.extractLsb' 8 8, w.extractLsb' 0 8] ∧
    writeThresholdFrame .overShutdown w = some [0x03#8, w.extractLsb' 8 8, w.extractLsb' 0 8] ∧
    writeThresholdFrame .temperature w = none) ∧
  writeThresholdFrame .hysteresis 0xC900#16 = some [0x02#8, 0xC9#8, 0x00#8]

/-- 30_encoding.md section 5 (general knowledge, decision D25): a decimal literal that is a multiple of 0.5 in [-128.0, 127.5]
converts exactly. -/
def Obligations.HalfStepLiteralsConvertExactly : Prop :=
  (∀ n : Nat, n ≤ 255 → real (nearest32 false (5 * n) 10) = (n : ℚ) / 2) ∧
  ∀ n : Nat, n ≤ 256 → real (nearest32 true (5 * n) 10) = -((n : ℚ) / 2)
end

