-- ==== Sys2Proof/Laws/State.lean ====
section
/-! SUPPORT. One lemma per field per update of State, true by rfl, so that no later proof unfolds a record update; and what each result
port reads after a result is driven. -/

namespace Sys2Proof.Machine

open Sys2Proof

@[simp] theorem State.writeCfg_cfg (s : State) (v : Byte) : (s.writeCfg v).cfg = v := rfl
@[simp] theorem State.writeCfg_ports (s : State) (v : Byte) : (s.writeCfg v).ports = s.ports := rfl
@[simp] theorem State.writeCfg_result (s : State) (v : Byte) : (s.writeCfg v).result = s.result := rfl
@[simp] theorem State.writeCfg_pending (s : State) (v : Byte) : (s.writeCfg v).pending = s.pending := rfl
@[simp] theorem State.writeCfg_faultRecord (s : State) (v : Byte) : (s.writeCfg v).faultRecord = s.faultRecord := rfl

@[simp] theorem State.drive_cfg (s : State) (r : Result) : (s.drive r).cfg = s.cfg := rfl
@[simp] theorem State.drive_ports (s : State) (r : Result) : (s.drive r).ports = s.ports := rfl
@[simp] theorem State.drive_result (s : State) (r : Result) : (s.drive r).result = r := rfl
@[simp] theorem State.drive_pending (s : State) (r : Result) : (s.drive r).pending = s.pending := rfl
@[simp] theorem State.drive_faultRecord (s : State) (r : Result) : (s.drive r).faultRecord = s.faultRecord := rfl

@[simp] theorem State.idle_cfg (s : State) : (s.idle).cfg = s.cfg := rfl
@[simp] theorem State.idle_ports (s : State) : (s.idle).ports = s.ports := rfl
@[simp] theorem State.idle_result (s : State) : (s.idle).result = .noResult := rfl
@[simp] theorem State.idle_pending (s : State) : (s.idle).pending = s.pending := rfl
@[simp] theorem State.idle_faultRecord (s : State) : (s.idle).faultRecord = s.faultRecord := rfl

@[simp] theorem State.present_cfg (s : State) (ps : List Ports) : (s.present ps).cfg = s.cfg := rfl
@[simp] theorem State.present_ports (s : State) (ps : List Ports) : (s.present ps).ports = s.ports := rfl
@[simp] theorem State.present_result (s : State) (ps : List Ports) : (s.present ps).result = s.result := rfl
@[simp] theorem State.present_pending (s : State) (ps : List Ports) : (s.present ps).pending = s.pending ++ ps := rfl
@[simp] theorem State.present_faultRecord (s : State) (ps : List Ports) : (s.present ps).faultRecord = s.faultRecord := rfl

@[simp] theorem State.latchFault_cfg (s : State) (f : Fault) : (s.latchFault f).cfg = s.cfg := rfl
@[simp] theorem State.latchFault_ports (s : State) (f : Fault) : (s.latchFault f).ports = s.ports := rfl
@[simp] theorem State.latchFault_result (s : State) (f : Fault) : (s.latchFault f).result = .noResult := rfl
@[simp] theorem State.latchFault_pending (s : State) (f : Fault) : (s.latchFault f).pending = s.pending := rfl
@[simp] theorem State.latchFault_faultRecord (s : State) (f : Fault) : (s.latchFault f).faultRecord = some f := rfl

@[simp] theorem State.applyReset_cfg (s : State) : (s.applyReset).cfg = 0x00 := rfl
@[simp] theorem State.applyReset_ports (s : State) : (s.applyReset).ports = s.ports := rfl
@[simp] theorem State.applyReset_result (s : State) : (s.applyReset).result = .noResult := rfl
@[simp] theorem State.applyReset_pending (s : State) : (s.applyReset).pending = s.pending := rfl
@[simp] theorem State.applyReset_faultRecord (s : State) : (s.applyReset).faultRecord = none := rfl

@[simp] theorem State.drive_temp_tout (s : State) (v : Pattern32) : (s.drive (.temp v)).tout = some v := rfl
@[simp] theorem State.drive_noResult_tout (s : State) : (s.drive .noResult).tout = none := rfl
@[simp] theorem State.drive_word_wout (s : State) (v : DeviceWord) : (s.drive (.word v)).wout = some v := rfl
@[simp] theorem State.drive_noResult_wout (s : State) : (s.drive .noResult).wout = none := rfl
@[simp] theorem State.drive_field_fout (s : State) (v : FieldValue) : (s.drive (.field v)).fout = some v := rfl
@[simp] theorem State.drive_noResult_fout (s : State) : (s.drive .noResult).fout = none := rfl
@[simp] theorem State.drive_byte_bout (s : State) (v : Byte) : (s.drive (.byte v)).bout = some v := rfl
@[simp] theorem State.drive_noResult_bout (s : State) : (s.drive .noResult).bout = none := rfl

end Sys2Proof.Machine
end

