-- ==== Sys2Proof/Laws/Ops.lean ====
section
/-! SUPPORT. One spec lemma per shared operation and per meaning, and what one step can do; later proofs cite these and do not unfold
the definitions. -/

namespace Sys2Proof.Machine

open Sys2Proof

/-! ## Bits -/

theorem slice_eq {n : Nat} (v : BitVec n) (lo width : Nat) : slice v lo width = v.extractLsb' lo width := rfl

/-- R9's sval is the two's-complement value. -/
theorem sval_eq_toInt {n : Nat} (x : BitVec n) : sval x = x.toInt := by
  rw [BitVec.toInt_eq_msb_cond, sval, ← BitVec.msb_eq_getMsbD_zero]
  cases x.msb <;> simp

/-- R9's neg is the wrapping negation. -/
theorem negField_eq_neg {n : Nat} (x : BitVec n) : negField x = -x := (BitVec.neg_eq_not_add x).symm

theorem mainField_eq (w : DeviceWord) : mainField w = w.extractLsb' 5 11 := rfl

theorem thrField_eq (w : DeviceWord) : thrField w = w.extractLsb' 7 9 := rfl

/-! ## CFG's fields -/

/-- Where the ones of a field stand. -/
theorem field_bits (f : Field) :
    f.bits = match f with | .sd => 0x01#8 | .am => 0x02#8 | .ap => 0x04#8 | .fq => 0x18#8 := by
  cases f <;> rfl

/-- An OR-setter leaves every bit outside its field alone. -/
theorem orField_outside (f : Field) (val cfg : Byte) : orField f val cfg &&& ~~~f.bits = cfg &&& ~~~f.bits := by
  rw [orField, Field.bits, BitVec.shiftLeft_and_distrib]
  ext k hk
  simp only [BitVec.getElem_and, BitVec.getElem_or, BitVec.getElem_not]
  cases cfg[k] <;> cases (val <<< f.shift)[k] <;> cases (f.ones <<< f.shift)[k] <;> rfl

/-! ## The commands' shared effects and each command's meaning -/

theorem setCommand_eq (f : Field) (val : Byte) (s : State) :
    setCommand f val s = .next { s with cfg := orField f val s.cfg, result := .noResult } := rfl

theorem getCommand_eq (f : Field) (s : State) :
    getCommand f s = .next { s with result := .field (getField f s.cfg) } := rfl

theorem exec_decm (s : State) : exec .decm s = .next (s.drive (.temp (decodePattern 11 3 s.ports.win))) := rfl

theorem exec_dect (s : State) : exec .dect s = .next (s.drive (.temp (decodePattern 9 1 s.ports.win))) := rfl

theorem exec_enct_inDomain {s : State} (h : inDomain s.ports.tin = true) :
    exec .enct s = .next (s.drive (.word (encWord (realUnits s.ports.tin)))) := by
  simp [exec, execEnct, h]

theorem exec_enct_outside {s : State} (h : inDomain s.ports.tin = false) :
    exec .enct s = .fault (.encodeDomain s.ports.tin) := by
  simp [exec, execEnct, h, raise]

theorem exec_cfgdef (s : State) : exec .cfgdef s = .next ((s.writeCfg 0x00).drive .noResult) := rfl

theorem exec_setsd (imm2 : FieldValue) (s : State) : exec (.setsd imm2) s = setCommand .sd (immBit imm2) s := rfl

theorem exec_setam (imm2 : FieldValue) (s : State) : exec (.setam imm2) s = setCommand .am (immBit imm2) s := rfl

theorem exec_setap (imm2 : FieldValue) (s : State) : exec (.setap imm2) s = setCommand .ap (immBit imm2) s := rfl

theorem exec_setfq (imm2 : FieldValue) (s : State) : exec (.setfq imm2) s = setCommand .fq (immPair imm2) s := rfl

theorem exec_getsd (s : State) : exec .getsd s = getCommand .sd s := rfl

theorem exec_getam (s : State) : exec .getam s = getCommand .am s := rfl

theorem exec_getap (s : State) : exec .getap s = getCommand .ap s := rfl

theorem exec_getfq (s : State) : exec .getfq s = getCommand .fq s := rfl

theorem exec_cfgld (s : State) : exec .cfgld s = .next ((s.writeCfg s.ports.bin).drive .noResult) := rfl

theorem exec_cfgrd (s : State) : exec .cfgrd s = .next (s.drive (.byte s.cfg)) := rfl

/-- A command that is a setter is one of the four. -/
theorem setterField_cases {i : Instr} {f : Field} (h : Safety.setterField i = some f) :
    ∃ imm2 : FieldValue, (i = .setsd imm2 ∧ f = .sd) ∨ (i = .setam imm2 ∧ f = .am) ∨ (i = .setap imm2 ∧ f = .ap) ∨
      (i = .setfq imm2 ∧ f = .fq) := by
  cases i <;> simp_all [Safety.setterField]

/-- A setter is its field's OR of some value. -/
theorem exec_setter {i : Instr} {f : Field} (h : Safety.setterField i = some f) :
    ∃ val : Byte, ∀ s : State, exec i s = setCommand f val s := by
  obtain ⟨imm2, ⟨rfl, rfl⟩ | ⟨rfl, rfl⟩ | ⟨rfl, rfl⟩ | ⟨rfl, rfl⟩⟩ := setterField_cases h
  exacts [⟨_, exec_setsd imm2⟩, ⟨_, exec_setam imm2⟩, ⟨_, exec_setap imm2⟩, ⟨_, exec_setfq imm2⟩]

/-! ## Presenting and sampling -/

@[simp] theorem fetch_nil {s : State} (h : s.pending = []) : fetch s = none := by simp [fetch, h]

@[simp] theorem fetch_cons {s : State} {p : Ports} {ps : List Ports} (h : s.pending = p :: ps) :
    fetch s = some { s with ports := p, pending := ps } := by simp [fetch, h]

/-! ## One step -/

theorem step_faulted {s : State} {f : Fault} (h : s.faultRecord = some f) : step s = .fault f := by
  simp [step, h, raise]

/-- A step with a command to come: its decoding decides between the reserved fault and the command's meaning. -/
theorem step_presented {s : State} {p : Ports} {ps : List Ports} (hf : s.faultRecord = none) (hp : s.pending = p :: ps) :
    step s = match decode p.cmd with
      | .error _ => .fault (.reservedCommand p.cmd)
      | .ok i => exec i { s with ports := p, pending := ps } := by
  cases hd : decode p.cmd <;> simp [step, hf, fetch_cons hp, raise, hd]

/-- Everything a step that answers a next state can have done. -/
theorem step_next_cases {s t : State} (h : step s = .next t) :
    s.faultRecord = none ∧ ((s.pending = [] ∧ t = s.idle) ∨
      ∃ (p : Ports) (ps : List Ports) (i : Instr), s.pending = p :: ps ∧ decode p.cmd = .ok i ∧
        exec i { s with ports := p, pending := ps } = .next t) := by
  have hf : s.faultRecord = none := by
    by_contra hne
    obtain ⟨f, hf⟩ := Option.ne_none_iff_exists'.mp hne
    simp [step_faulted hf] at h
  refine ⟨hf, ?_⟩
  cases hp : s.pending with
  | nil => exact .inl ⟨rfl, by simpa [step, hf, fetch_nil hp] using h.symm⟩
  | cons p ps =>
    rw [step_presented hf hp] at h
    cases hd : decode p.cmd with
    | error e => simp [hd] at h
    | ok i => exact .inr ⟨p, ps, i, rfl, hd, by simpa [hd] using h⟩

/-- Everything a step that answers a fault can have done. -/
theorem step_fault_cases {s : State} {f : Fault} (h : step s = .fault f) :
    s.faultRecord = some f ∨
      (s.faultRecord = none ∧ ∃ (p : Ports) (ps : List Ports), s.pending = p :: ps ∧
        ((f = .reservedCommand p.cmd ∧ ∃ e, decode p.cmd = .error e) ∨
          ∃ i : Instr, decode p.cmd = .ok i ∧ exec i { s with ports := p, pending := ps } = .fault f)) := by
  by_cases hf : s.faultRecord = none
  · refine .inr ⟨hf, ?_⟩
    cases hp : s.pending with
    | nil => simp [step, hf, fetch_nil hp] at h
    | cons p ps =>
      rw [step_presented hf hp] at h
      cases hd : decode p.cmd with
      | error e => exact ⟨p, ps, rfl, .inl ⟨by simpa [hd] using h.symm, e, hd⟩⟩
      | ok i => exact ⟨p, ps, rfl, .inr ⟨i, hd, by simpa [hd] using h⟩⟩
  · obtain ⟨g, hg⟩ := Option.ne_none_iff_exists'.mp hf
    rw [step_faulted hg] at h
    cases h
    exact .inl hg

end Sys2Proof.Machine
end

