-- ==== Sys2Proof/Laws/Codec.lean ====
section
/-! SUPPORT. The codec's integers of 2^-149 °C against the exact rationals of the spec: the comparisons of R67 and the truncation of
R68, said once over ℚ. -/

namespace Sys2Proof.Machine

open Sys2Proof

theorem unitsPerDegree_pos : (0 : ℚ) < (unitsPerDegree : ℚ) := by norm_num [unitsPerDegree]

theorem real_lt_iff (b : Pattern32) (n : ℤ) : real b < (n : ℚ) ↔ realUnits b < n * (unitsPerDegree : ℤ) := by
  rw [real, div_lt_iff₀ unitsPerDegree_pos, ← Int.cast_natCast, ← Int.cast_mul, Int.cast_lt]

theorem le_real_iff (b : Pattern32) (n : ℤ) : (n : ℚ) ≤ real b ↔ n * (unitsPerDegree : ℤ) ≤ realUnits b := by
  rw [real, le_div_iff₀ unitsPerDegree_pos, ← Int.cast_natCast, ← Int.cast_mul, Int.cast_le]

/-- R67's domain, over the value the pattern denotes. -/
theorem inDomain_iff (b : Pattern32) :
    inDomain b = true ↔ classify b = .finite ∧ -128 ≤ real b ∧ real b < 128 := by
  have hl := le_real_iff b (-128)
  have hu := real_lt_iff b 128
  push_cast at hl hu
  rw [hl, hu]
  simp [inDomain]

/-- The floor of a non-negative value is the truncation of its units. -/
theorem floor_real (b : Pattern32) : ⌊real b⌋ = realUnits b / (unitsPerDegree : ℤ) := by
  rw [real]
  exact_mod_cast Rat.floor_intCast_div_natCast (realUnits b) unitsPerDegree

theorem signBit_realUnits (b : Pattern32) :
    realUnits b = (if signBit b then -1 else 1) * (magUnits b : ℤ) := by
  cases h : signBit b <;> simp [realUnits, h]

theorem decSteps_main (w : DeviceWord) : decSteps 11 w = (w.extractLsb' 5 11).toInt := sval_eq_toInt _

theorem decSteps_thr (w : DeviceWord) : decSteps 9 w = (w.extractLsb' 7 9).toInt := sval_eq_toInt _

end Sys2Proof.Machine
end

