-- ==== Sys2Proof/Laws/PerInstr.lean ====
section
/-! SUPPORT. Statements about every command as syntax, one lemma per constructor. EncodesInRow: the word of a well-formed command
matches its own row of the opcode map and no other (30_encoding.md R50). -/

namespace Sys2Proof.Laws.EncodesInRow

open Sys2Proof

/-- The rows of the opcode map a well-formed command's word matches are the one row of its mnemonic. -/
abbrev Statement (i : Instr) : Prop :=
  i.wf = true → (opcodeMap.filter fun r => r.matchesWord (encode i)).map OpcodeRow.mnemonic = [i.mnemonic]

theorem decm : Statement .decm := by decide

theorem dect : Statement .dect := by decide

theorem enct : Statement .enct := by decide

theorem cfgdef : Statement .cfgdef := by decide

theorem setsd : ∀ imm2 : FieldValue, Statement (.setsd imm2) := by decide

theorem setam : ∀ imm2 : FieldValue, Statement (.setam imm2) := by decide

theorem setap : ∀ imm2 : FieldValue, Statement (.setap imm2) := by decide

theorem setfq : ∀ imm2 : FieldValue, Statement (.setfq imm2) := by decide

theorem getsd : Statement .getsd := by decide

theorem getam : Statement .getam := by decide

theorem getap : Statement .getap := by decide

theorem getfq : Statement .getfq := by decide

theorem cfgld : Statement .cfgld := by decide

theorem cfgrd : Statement .cfgrd := by decide

end Sys2Proof.Laws.EncodesInRow
end

