-- ==== Sys2Proof/Tests/Slice0.lean ====
section
/-! SUPPORT. Tests: the WellFormed smoke tests, each command's word written out from 30_encoding.md R50, one step a test on the
vectors of 95_test_vectors.md, and for each statement with hypotheses a witness that meets them. Every expected value is the spec's. -/

namespace Sys2Proof.Tests

open Sys2Proof Sys2Proof.Machine Sys2Proof.Safety

/-! ## WellFormed: an ill-formed term for each check (R55) -/

theorem test_wf_refuses_setsd_two : (Instr.setsd 2#2).wf = false := by decide

theorem test_wf_refuses_setam_three : (Instr.setam 3#2).wf = false := by decide

theorem test_wf_refuses_setap_two : (Instr.setap 2#2).wf = false := by decide

theorem test_wf_admits_setfq_three : (Instr.setfq 3#2).wf = true := by decide

/-! ## Decoding: R50's patterns, bit by bit, and the reserved words of 95_test_vectors.md 2.7 -/

theorem test_decode_codec : decodeTableWord 8 0b00000001 = some .decm ∧ decodeTableWord 8 0b00000010 = some .dect ∧
    decodeTableWord 8 0b00000011 = some .enct := by decide

theorem test_decode_default_and_raw : decodeTableWord 8 0b00000100 = some .cfgdef ∧ decodeTableWord 8 0b00001101 = some .cfgld ∧
    decodeTableWord 8 0b00001110 = some .cfgrd := by decide

theorem test_decode_one_bit_setters : decodeTableWord 8 0b00000101 = some (.setsd 0#2) ∧
    decodeTableWord 8 0b00010101 = some (.setsd 1#2) ∧ decodeTableWord 8 0b00000110 = some (.setam 0#2) ∧
    decodeTableWord 8 0b00010110 = some (.setam 1#2) ∧ decodeTableWord 8 0b00000111 = some (.setap 0#2) ∧
    decodeTableWord 8 0b00010111 = some (.setap 1#2) := by decide

theorem test_decode_setfq : decodeTableWord 8 0b00001000 = some (.setfq 0#2) ∧ decodeTableWord 8 0b00011000 = some (.setfq 1#2) ∧
    decodeTableWord 8 0b00101000 = some (.setfq 2#2) ∧ decodeTableWord 8 0b00111000 = some (.setfq 3#2) := by decide

theorem test_decode_getters : decodeTableWord 8 0b00001001 = some .getsd ∧ decodeTableWord 8 0b00001010 = some .getam ∧
    decodeTableWord 8 0b00001011 = some .getap ∧ decodeTableWord 8 0b00001100 = some .getfq := by decide

theorem test_decode_reserved : decode 0x00#8 = .error .opUnassigned ∧ decode 0x0F#8 = .error .opUnassigned ∧
    decode 0x11#8 = .error .immMisused ∧ decode 0x25#8 = .error .immMisused ∧ decode 0x37#8 = .error .immMisused ∧
    decode 0x3E#8 = .error .immMisused ∧ decode 0x41#8 = .error .rsvNotZero ∧ decode 0xC8#8 = .error .rsvNotZero ∧
    decode 0xFF#8 = .error .rsvNotZero := by
  refine ⟨rfl, rfl, rfl, rfl, rfl, rfl, rfl, rfl, rfl⟩

theorem test_encode_words : encode (.setfq 2#2) = 0x28#8 ∧ encode (.setsd 1#2) = 0x15#8 ∧ encode (.setap 1#2) = 0x17#8 := by decide

/-- No word matches two rows of the opcode map (R50). -/
theorem test_opcode_rows_disjoint :
    opcodeMap.Pairwise fun r q => ∀ w : Byte, ¬ (r.matchesWord w = true ∧ q.matchesWord w = true) := by decide

/-! ## One step on the vectors of 95_test_vectors.md -/

/-- The block with CFG = cfg and one command to come. -/
def before (cfg : Byte) (p : Ports) : State := { State.reset with cfg := cfg, pending := [p] }

/-- What one step leaves in CFG and on the result ports, or the fault it raises. -/
def after (cfg : Byte) (p : Ports) : Option (Byte × Result) × Option Fault :=
  match step (before cfg p) with
  | .next t => (some (t.cfg, t.result), none)
  | .fault f => (none, some f)
  | .refused _ => (none, none)

/-- A command word with a device word on WIN. -/
def withWin (cmd : Byte) (win : DeviceWord) : Ports := { cmd := cmd, win := win, tin := 0x7FC00000, bin := 0xFF }

/-- A command word with a pattern on TIN. -/
def withTin (cmd : Byte) (tin : Pattern32) : Ports := { cmd := cmd, win := 0xFFFF, tin := tin, bin := 0xFF }

/-- A command word with a byte on BIN. -/
def withBin (cmd : Byte) (bin : Byte) : Ports := { cmd := cmd, win := 0xFFFF, tin := 0x7FC00000, bin := bin }

theorem test_decm_negative : after 0x16 (withWin 0x01 0xC900) = (some (0x16, .temp 0xC25C0000), none) := by decide

theorem test_decm_largest_with_padding : after 0x00 (withWin 0x01 0x7FFF) = (some (0x00, .temp 0x42FFC000), none) := by decide

theorem test_dect_most_negative : after 0x00 (withWin 0x02 0x8000) = (some (0x00, .temp 0xC3000000), none) := by decide

theorem test_dect_padding_ignored : after 0xFF (withWin 0x02 0x00FF) = (some (0xFF, .temp 0x3F000000), none) := by decide

theorem test_enct_presence_bit_negative : after 0x16 (withTin 0x03 0xC1CA0000) = (some (0x16, .word 0xE680), none) := by decide

theorem test_enct_domain_bound : after 0x16 (withTin 0x03 0x43000000) = (none, some (.encodeDomain 0x43000000)) := by decide

theorem test_reserved_before_domain : after 0x00 (withTin 0x13 0x7FC00000) = (none, some (.reservedCommand 0x13)) := by decide

theorem test_cfgdef_clears_reserved : after 0xFF (withBin 0x04 0xFF) = (some (0x00, .noResult), none) := by decide

theorem test_setsd_keeps_reserved : after 0xE0 (withBin 0x15 0xFF) = (some (0xE1, .noResult), none) := by decide

theorem test_setsd_zero_clears_nothing : after 0x01 (withBin 0x05 0xFF) = (some (0x01, .noResult), none) := by decide

theorem test_setam_one : after 0x00 (withBin 0x16 0xFF) = (some (0x02, .noResult), none) := by decide

theorem test_setap_one : after 0x10 (withBin 0x17 0xFF) = (some (0x14, .noResult), none) := by decide

theorem test_setfq_accumulates : after 0x08 (withBin 0x28 0xFF) = (some (0x18, .noResult), none) := by decide

theorem test_setfq_two : after 0x00 (withBin 0x28 0xFF) = (some (0x10, .noResult), none) := by decide

theorem test_getsd : after 0xE9 (withBin 0x09 0xFF) = (some (0xE9, .field 1), none) := by decide

theorem test_getam : after 0x06 (withBin 0x0A 0xFF) = (some (0x06, .field 1), none) := by decide

theorem test_getap : after 0x10 (withBin 0x0B 0xFF) = (some (0x10, .field 0), none) := by decide

theorem test_getfq : after 0x16 (withBin 0x0C 0xFF) = (some (0x16, .field 2), none) := by decide

theorem test_cfgld_reserved_kept : after 0x00 (withBin 0x0D 0xE9) = (some (0xE9, .noResult), none) := by decide

theorem test_cfgrd_whole_byte : after 0xE9 (withBin 0x0E 0x00) = (some (0xE9, .byte 0xE9), none) := by decide

/-! ## The host's interface, notation and context -/

/-- A word placed after reset is the next one to run: SETFQ 2, R58's example. -/
theorem test_placed_word_runs : step (State.reset.withFetchWord 8 0x28) =
    .next { State.reset with cfg := 0x10, ports := { Ports.atReset with cmd := 0x28 } } := rfl

/-- 30_encoding.md R59: ENCT 25.9 is TIN = 0x41CF3333, and 95_test_vectors.md's tie-free neighbour 127.9. -/
theorem test_decimal_literals : nearest32 false 259 10 = 0x41CF3333 ∧ nearest32 true 1279 10 = 0xC2FFCCCD ∧
    nearest32 false 1 10 = 0x3DCCCCCD := by decide

/-- R66 by hand on R59's pattern 0x41CF3333: s = 0, e = 131, m = 0x4F3333, so the value is 13579059 * 2^-19, not the decimal R59
prints (log entry 16). -/
theorem test_value_of_25_9 : realUnits 0x41CF3333 = 13579059 * 2 ^ 130 := by decide

/-- 30_encoding.md R58 and R60, and a line with no syntax (95_test_vectors.md P5). -/
theorem test_lines_read :
    readLine ['S', 'E', 'T', 'F', 'Q', ' ', '2', ' ', ';', 'x'] = .ok [.setfq 2] ∧
    readLine ['D', 'E', 'C', 'M', ' ', '0', 'x', 'C', '9', '0', '0'] = .ok [.decm 0xC900] ∧
    readLine ['E', 'N', 'C', 'T', ' ', '-', '2', '5', '.', '0'] = .ok [.enct 0xC1C80000] ∧
    readLine ['S', 'E', 'T', 'S', 'D', ' ', '2'] = .error () := by
  refine ⟨rfl, rfl, rfl, rfl⟩

/-- 20_memory.md R41, R43 and 95_test_vectors.md 1.7. -/
theorem test_frames : writeThresholdFrame .hysteresis 0xC900 = some [0x02, 0xC9, 0x00] ∧ writeConfigFrame 0x16 = [0x01, 0x16] ∧
    (afterRead .temperature Ports.atReset (some [0xC9, 0x00])).map Ports.win = [0xC900] ∧
    afterRead .temperature Ports.atReset none = [] := by decide

/-- The source's sign-magnitude procedure on its own vectors (95_test_vectors.md 1.1, 1.2). -/
theorem test_sign_magnitude : decStepsSignMag 11 3 0xC900 = -440 ∧ decStepsSignMag 11 3 0x8000 = -1024 ∧
    decStepsSignMag 9 1 0x7D00 = 250 := by decide

/-! ## Witnesses: what meets the statements' hypotheses -/

/-- A state with every field away from its reset value. -/
def busy : State :=
  { cfg := 0xE9, ports := withTin 0x03 0xC3000000, result := .byte 0xE9, pending := [withWin 0x01 0xC900, withTin 0x13 0],
    faultRecord := none }

/-- The two ends of ENCT's domain (R67): -128.0, and the largest binary32 below 128. -/
theorem witness_domain_ends :
    (classify 0xC3000000 = .finite ∧ -128 ≤ real 0xC3000000 ∧ real 0xC3000000 < 128) ∧
    (classify 0x42FFFFFF = .finite ∧ -128 ≤ real 0x42FFFFFF ∧ real 0x42FFFFFF < 128) :=
  ⟨(inDomain_iff _).mp (by decide), (inDomain_iff _).mp (by decide)⟩

/-- EncodedWordDecodesToTheTruncatedStep, EncodeIsLosslessOnHalfStepsOnly, EveryCommandCompletes, and EnctEncodesOrFaults' first
clause. -/
theorem witness_enct_in_domain :
    classify busy.ports.tin = .finite ∧ -128 ≤ real busy.ports.tin ∧ real busy.ports.tin < 128 := witness_domain_ends.1

/-- EnctEncodesOrFaults' second clause, each of its three cases: a NaN, the next value below -128.0, and 128.0. -/
theorem witness_enct_outside :
    classify 0x7FC00000 ≠ .finite ∧ real 0xC3000001 < -128 ∧ 128 ≤ real 0x43000000 := by
  refine ⟨by decide, ?_, ?_⟩
  · exact_mod_cast (real_lt_iff 0xC3000001 (-128)).mpr (by decide)
  · exact_mod_cast (le_real_iff 0x43000000 128).mpr (by decide)

/-- EnctEncodesOrFaults' last clause, DecmDecodesTheMainWord's and DectDecodesTheThresholdWord's. -/
theorem witness_corner_words :
    ({ busy with ports := withTin 0x03 0xC25C0000 } : State).ports.tin = 0xC25C0000#32 ∧
    ({ busy with ports := withWin 0x01 0x8000 } : State).ports.win = 0x8000#16 := by decide

/-- EveryMainValueIsDecoded, at both ends. -/
theorem witness_main_values :
    (withWin 0x01 0x8000).win = BitVec.ofInt 11 (-1024) ++ 0#5 ∧ (withWin 0x01 0x7FFF).win = BitVec.ofInt 11 1023 ++ 31#5 := by decide

/-- DecodeIsAnArithmeticShift's last clause. -/
theorem witness_zero_padding : 0xC900#16 &&& 0x007F#16 = 0x0000#16 := by decide

/-- PatternDenotesItsValue's four clauses: the largest subnormal, the two ends of the normal exponents, an infinity and a NaN. -/
theorem witness_patterns :
    (0x007FFFFF#32).extractLsb' 23 8 = 0#8 ∧
    ((0x00800000#32).extractLsb' 23 8 ≠ 0#8 ∧ (0x00800000#32).extractLsb' 23 8 ≠ 255#8) ∧
    ((0x7F7FFFFF#32).extractLsb' 23 8 ≠ 0#8 ∧ (0x7F7FFFFF#32).extractLsb' 23 8 ≠ 255#8) ∧
    ((0xFF800000#32).extractLsb' 23 8 = 255#8 ∧ (0xFF800000#32).extractLsb' 0 23 = 0#23) ∧
    ((0x7F800001#32).extractLsb' 23 8 = 255#8 ∧ (0x7F800001#32).extractLsb' 0 23 ≠ 0#23) := by decide

/-- HalfStepsRoundTrip, at both ends, and ReencodingZeroesThePadding's inner hypothesis. -/
theorem witness_half_steps :
    (withTin 0x03 0xC3000000).tin = b32 (-256) 1 ∧ (withTin 0x03 0x42FF0000).tin = b32 255 1 ∧
    (withTin 0x03 0xC3000000).tin = decodePattern 9 1 0x8000 := by decide

/-- EncodeIsSignSymmetric: v the largest value below 128, and its negation. -/
theorem witness_sign_symmetry :
    classify (withTin 0x03 0x42FFFFFF).tin = .finite ∧ 0 < real (withTin 0x03 0x42FFFFFF).tin ∧
    real (withTin 0x03 0x42FFFFFF).tin < 128 ∧ (withTin 0x03 0xC2FFFFFF).tin = (withTin 0x03 0x42FFFFFF).tin ^^^ 0x80000000#32 := by
  refine ⟨by decide, ?_, witness_domain_ends.2.2.2, by decide⟩
  have h := (le_real_iff 0x42FFFFFF 1).mpr (by decide)
  push_cast at h
  exact lt_of_lt_of_le one_pos h

/-- EncodedWordsAreTheThresholdWords, CommandsChangeOnlyCfgAndResult and CommandsAreIdempotent: ENCT answers a next state at the
lower end of its domain. -/
theorem witness_enct_next : exec .enct busy = .next { busy with result := .word 0x8000 } := rfl

/-- CodecCommandsArePure, for each of its commands, in two states that differ in CFG and in the other ports. -/
theorem witness_codec_pure :
    busy.ports.win = ({ State.reset with ports := withWin 0x01 0xFFFF } : State).ports.win ∧
    busy.ports.tin = ({ State.reset with ports := withTin 0x00 0xC3000000 } : State).ports.tin := by decide

/-- StepRunsTheDecodedCommand. -/
theorem witness_step_runs : busy.faultRecord = none ∧ busy.pending = withWin 0x01 0xC900 :: [withTin 0x13 0] ∧
    decode (withWin 0x01 0xC900).cmd = .ok .decm := ⟨rfl, rfl, rfl⟩

/-- ReservedWordsFaultAndNoOthers and FaultIsRecordedAndChangesNothingElse: ENCT's word with IMM2 = 1. -/
theorem witness_reserved_step : (before 0xE9 (withTin 0x13 0)).faultRecord = none ∧
    (before 0xE9 (withTin 0x13 0)).pending = withTin 0x13 0 :: [] ∧
    step (before 0xE9 (withTin 0x13 0)) = .fault (.reservedCommand 0x13) := ⟨rfl, rfl, rfl⟩

/-- NoCommandPresentedIdles. -/
theorem witness_idle : ({ busy with pending := [] } : State).faultRecord = none ∧ ({ busy with pending := [] } : State).pending = [] :=
  ⟨rfl, rfl⟩

/-- FaultedStateIsFinal. -/
theorem witness_faulted : (busy.latchFault (.reservedCommand 0x13)).faultRecord = some (.reservedCommand 0x13) := rfl

/-- DecodeAndEncodeAgree and OpcodeMapRowsAreTheDecoder. -/
theorem witness_encoding : (Instr.setfq 3#2).wf = true ∧ decode 0x38#8 = .ok (.setfq 3#2) ∧
    (⟨"SETFQ", 0x08, 0xCF⟩ : OpcodeRow) ∈ opcodeMap := ⟨rfl, rfl, by decide⟩

/-- CfgdefStartsFresh, and the setters' clauses on a next state. -/
theorem witness_cfg_next :
    exec .cfgdef busy = .next { busy with cfg := 0x00, result := .noResult } ∧
    exec (.setsd 3#2) busy = .next { busy with cfg := 0xE9, result := .noResult } ∧
    exec (.setam 1#2) busy = .next { busy with cfg := 0xEB, result := .noResult } ∧
    exec (.setap 1#2) busy = .next { busy with cfg := 0xED, result := .noResult } ∧
    exec (.setfq 2#2) busy = .next { busy with cfg := 0xF9, result := .noResult } ∧
    exec .cfgld busy = .next { busy with cfg := 0xFF, result := .noResult } := ⟨rfl, rfl, rfl, rfl, rfl, rfl⟩

/-- The setters' reserved clauses: IMM2[1] = 1, and RSV ≠ 0, for each OP. -/
theorem witness_setter_reserved :
    (0x25#8).extractLsb' 0 4 = 0x5#4 ∧ (0x25#8)[5] = true ∧ (0x45#8).extractLsb' 0 4 = 0x5#4 ∧ (0x45#8).extractLsb' 6 2 ≠ 0#2 ∧
    (0x36#8).extractLsb' 0 4 = 0x6#4 ∧ (0x36#8)[5] = true ∧ (0x86#8).extractLsb' 0 4 = 0x6#4 ∧ (0x86#8).extractLsb' 6 2 ≠ 0#2 ∧
    (0x27#8).extractLsb' 0 4 = 0x7#4 ∧ (0x27#8)[5] = true ∧ (0xC7#8).extractLsb' 0 4 = 0x7#4 ∧ (0xC7#8).extractLsb' 6 2 ≠ 0#2 ∧
    (0xC8#8).extractLsb' 0 4 = 0x8#4 ∧ (0xC8#8).extractLsb' 6 2 ≠ 0#2 := by decide

/-- The setters', getters', CFGLD's and CFGRD's example clauses. -/
theorem witness_example_bytes :
    (before 0x10 (withBin 0x15 0)).cfg = 0x10 ∧ (before 0x00 (withBin 0x16 0)).cfg = 0x00 ∧ (before 0x17 (withBin 0x09 0)).cfg = 0x17 ∧
    (before 0x02 (withBin 0x0A 0)).cfg = 0x02 ∧ (before 0x14 (withBin 0x0B 0)).cfg = 0x14 ∧
    ({ busy with ports := withBin 0x0D 0xE9 } : State).ports.bin = 0xE9 := by decide

/-- CfgrdReadsTheWholeByte, SettersMayBeReordered, SettersFromDefaultStayBelowReservedBits, SettersOrAndNeverClear. -/
theorem witness_setters : ∀ i ∈ [Instr.setfq 3#2, .setap 1#2, .setam 1#2, .setsd 1#2], setterField i ≠ none := by decide

/-- SettersMayBeReordered and EveryConfigurationIsReachedInAnyOrder: CFGBUILD's order of the setters (R60). -/
theorem witness_setter_order :
    [Instr.setfq 3#2, .setap (0#1 ++ 1#1), .setam (0#1 ++ 1#1), .setsd (0#1 ++ 1#1)].Perm
      [.setsd (0#1 ++ 1#1), .setam (0#1 ++ 1#1), .setap (0#1 ++ 1#1), .setfq 3#2] := by decide

/-- SettersLeaveOtherFieldsAlone. -/
theorem witness_other_field : setterField (.setfq 2#2) = some .fq ∧ Field.ap ≠ .fq := by decide

/-- CfgHasNoEffectInside, for a command that completes and for one that faults. -/
theorem witness_cfg_blind : Instr.decm ∉ [Instr.getsd, .getam, .getap, .getfq, .cfgrd] ∧
    Instr.enct ∉ [Instr.getsd, .getam, .getap, .getfq, .cfgrd] := by decide

/-- EveryCommandCompletes' first clause. -/
theorem witness_not_enct : Instr.decm ≠ .enct := by decide

/-- StepKeepsResultInSets: CFGRD's byte in a block that goes on to decode a word. -/
theorem witness_result_in_sets : ResultInSets busy ∧
    step busy = .next { busy with ports := withWin 0x01 0xC900, result := .temp 0xC25C0000, pending := [withTin 0x13 0] } :=
  ⟨rfl, rfl⟩

/-- StepKeepsReservedBitsClear: a CFGLD of the largest byte with bits 7:5 clear. -/
theorem witness_reserved_clear : ReservedBitsClear (before 0x1F (withBin 0x0D 0x1F)) ∧
    step (before 0x1F (withBin 0x0D 0x1F)) =
      .next { before 0x1F (withBin 0x0D 0x1F) with ports := withBin 0x0D 0x1F, pending := [] } := by
  refine ⟨⟨rfl, ?_⟩, rfl⟩
  intro p hp _
  obtain rfl : p = withBin 0x0D 0x1F := by simpa [before] using hp
  rfl

/-- ResetReservedBitsClear's stream. -/
theorem witness_no_cfgld : ∀ p ∈ [withBin 0x0E 0xFF], p.cmd ≠ 0x0D#8 := by decide

/-- SafeStreamsNeverFault: an ENCT at the lower end of its domain, then a setter. -/
theorem witness_safe : SafeState { State.reset with pending := [withTin 0x03 0xC3000000, withBin 0x38 0] } :=
  ⟨rfl, by decide⟩

/-- FirstUnsafeCommandEndsTheRun: P4 of 95_test_vectors.md, from its third command on. -/
theorem witness_first_unsafe : (∀ q ∈ [withWin 0x01 0x8000], safeCommand q = true) ∧
    safeCommand (withTin 0x03 0x43000000) = false ∧ safeCommand (withBin 0x25 0) = false := by decide

/-- PresentedProgramRunsAsItsCommands: SETFQ 2, then DECT, with an ENCT still to come. -/
theorem witness_presented :
    ({ State.reset with pending := [withBin 0x28 0, withWin 0x02 0xE700, withTin 0x03 0] } : State).pending =
      presented [(.setfq 2#2, withBin 0x00 0), (.dect, withWin 0xFF 0xE700)] ++ [withTin 0x03 0] ∧
    ∀ c ∈ [(Instr.setfq 2#2, withBin 0x00 0), (.dect, withWin 0xFF 0xE700)], c.1.wf = true := by decide

/-- HalfStepLiteralsConvertExactly, at both ends: 127.5 and -128.0 (95_test_vectors.md 2.3). -/
theorem witness_literals : nearest32 false (5 * 255) 10 = 0x42FF0000 ∧ nearest32 true (5 * 256) 10 = 0xC3000000 := by decide

end Sys2Proof.Tests
end

section
/-! SUPPORT. Where CFG can reach a command's outcome (10_state.md R16, R23). -/

namespace Sys2Proof.CfgBlind

open Sys2Proof Sys2Proof.Machine Sys2Proof.Safety

/-- A command that writes CFG completes and drives no result (R16, R26): it only puts some value in CFG. -/
theorem exec_writesCfg {i : Instr} (h : writesCfg i = true) (s : State) :
    ∃ v : Byte, exec i s = .next ((s.writeCfg v).drive .noResult) := by
  cases i with
  | cfgdef => exact ⟨_, exec_cfgdef s⟩
  | setsd imm2 => exact ⟨_, exec_setsd imm2 s⟩
  | setam imm2 => exact ⟨_, exec_setam imm2 s⟩
  | setap imm2 => exact ⟨_, exec_setap imm2 s⟩
  | setfq imm2 => exact ⟨_, exec_setfq imm2 s⟩
  | cfgld => exact ⟨_, exec_cfgld s⟩
  | decm | dect | enct | getsd | getam | getap | getfq | cfgrd => cases h

/-- A command that neither writes CFG nor reads it out is one of the codec's three. -/
theorem codec_of_not_writesCfg {i : Instr} (hw : writesCfg i = false)
    (hr : i ∉ [.getsd, .getam, .getap, .getfq, .cfgrd]) : i = .decm ∨ i = .dect ∨ i = .enct := by
  cases i <;> simp_all [writesCfg]

/-- The ports alone fix what a command other than the five readers of CFG drives, or the fault it raises: one result, or one fault,
serves every state that carries those ports. -/
theorem exec_outcome_of_ports {i : Instr} (hr : i ∉ [.getsd, .getam, .getap, .getfq, .cfgrd]) (p : Ports) :
    (∃ r : Result, ∀ s : State, s.ports = p → ∃ t : State, exec i s = .next t ∧ t.result = r) ∨
      ∃ f : Fault, ∀ s : State, s.ports = p → exec i s = .fault f := by
  cases hw : writesCfg i with
  | true =>
    refine .inl ⟨.noResult, fun s _ => ?_⟩
    obtain ⟨v, hv⟩ := exec_writesCfg hw s
    exact ⟨_, hv, rfl⟩
  | false =>
    obtain rfl | rfl | rfl := codec_of_not_writesCfg hw hr
    · exact .inl ⟨.temp (decodePattern 11 3 p.win), by rintro s rfl; exact ⟨_, exec_decm s, rfl⟩⟩
    · exact .inl ⟨.temp (decodePattern 9 1 p.win), by rintro s rfl; exact ⟨_, exec_dect s, rfl⟩⟩
    · cases hd : inDomain p.tin with
      | true => exact .inl ⟨.word (encWord (realUnits p.tin)), by rintro s rfl; exact ⟨_, exec_enct_inDomain hd, rfl⟩⟩
      | false => exact .inr ⟨.encodeDomain p.tin, by rintro s rfl; exact exec_enct_outside hd⟩

/-- Settles O45: the two states carry the same ports, and the ports alone fix the outcome. -/
theorem cfgHasNoEffectInside : Obligations.CfgHasNoEffectInside := by
  intro i s b hr
  obtain ⟨r, hnext⟩ | ⟨f, hfault⟩ := exec_outcome_of_ports hr s.ports
  · obtain ⟨t, ht, htr⟩ := hnext s rfl
    obtain ⟨u, hu, hur⟩ := hnext { s with cfg := b } rfl
    exact .inl ⟨t, u, ht, hu, htr.trans hur.symm⟩
  · exact .inr ⟨f, hfault s rfl, hfault { s with cfg := b } rfl⟩

end Sys2Proof.CfgBlind
end

section
/-! SUPPORT. The temperature codec's commands (40_temperature_codec.md): what DECM and DECT drive (R64, R65), what ENCT's word decodes
to (R68, R69) and how far that is from the value encoded (R74), and that the three depend on their operand port alone (R78). -/

namespace Sys2Proof.CodecCommands

open Sys2Proof Sys2Proof.Machine

/-! ## DECM and DECT -/

/-- Settles O12: DECM's field is read as a two's-complement number, and the corner words are evaluated one by one. -/
theorem decmDecodesTheMainWord : Obligations.DecmDecodesTheMainWord := by
  refine ⟨rfl, rfl, fun s => ?_, fun s w b hc hw => ?_⟩
  · rw [exec_decm, decodePattern, decSteps_main]
    rfl
  · have hb : decodePattern 11 3 w = b := by
      simp only [List.mem_cons, Prod.mk.injEq, List.not_mem_nil, or_false] at hc
      obtain ⟨rfl, rfl⟩ | ⟨rfl, rfl⟩ | ⟨rfl, rfl⟩ | ⟨rfl, rfl⟩ | ⟨rfl, rfl⟩ | ⟨rfl, rfl⟩ | ⟨rfl, rfl⟩ := hc <;> decide
    rw [exec_decm, hw, hb]
    rfl

/-- Settles O13: DECT's field is read as a two's-complement number, and the corner words are evaluated one by one. -/
theorem dectDecodesTheThresholdWord : Obligations.DectDecodesTheThresholdWord := by
  refine ⟨rfl, rfl, fun s => ?_, fun s w b hc hw => ?_⟩
  · rw [exec_dect, decodePattern, decSteps_thr]
    rfl
  · have hb : decodePattern 9 1 w = b := by
      simp only [List.mem_cons, Prod.mk.injEq, List.not_mem_nil, or_false] at hc
      obtain ⟨rfl, rfl⟩ | ⟨rfl, rfl⟩ | ⟨rfl, rfl⟩ | ⟨rfl, rfl⟩ | ⟨rfl, rfl⟩ | ⟨rfl, rfl⟩ | ⟨rfl, rfl⟩ | ⟨rfl, rfl⟩ := hc <;> decide
    rw [exec_dect, hw, hb]
    rfl

/-! ## Purity -/

/-- Settles O26: each command's own equation names no part of the state but its operand port. -/
theorem codecCommandsArePure : Obligations.CodecCommandsArePure := by
  rintro i s u (⟨rfl | rfl, hwin⟩ | ⟨rfl, htin⟩)
  · exact .inl ⟨_, exec_decm s, hwin ▸ exec_decm u⟩
  · exact .inl ⟨_, exec_dect s, hwin ▸ exec_dect u⟩
  · cases hd : inDomain s.ports.tin with
    | true => exact .inl ⟨_, exec_enct_inDomain hd, htin ▸ exec_enct_inDomain (htin ▸ hd)⟩
    | false => exact .inr ⟨_, exec_enct_outside hd, htin ▸ exec_enct_outside (htin ▸ hd)⟩

/-! ## ENCT's word, decoded -/

/-- The half steps R68 and R69 keep of a magnitude of n units of 2^-149 °C: two for each whole degree, and one where a remainder is
left. -/
def keptHalfSteps (n : ℕ) : ℕ := 2 * (n / unitsPerDegree) + if n % unitsPerDegree = 0 then 0 else 1

theorem keptHalfSteps_le {n : ℕ} (h : n ≤ 128 * unitsPerDegree) : keptHalfSteps n ≤ 256 := by
  unfold keptHalfSteps unitsPerDegree at *
  split <;> omega

theorem keptHalfSteps_lt {n : ℕ} (h : n < 128 * unitsPerDegree) : keptHalfSteps n < 256 := by
  unfold keptHalfSteps unitsPerDegree at *
  split <;> omega

/-- The kept half steps are less than one half step away from the magnitude. -/
theorem keptHalfSteps_near (n : ℕ) :
    keptHalfSteps n * unitsPerDegree < 2 * n + unitsPerDegree ∧ 2 * n < keptHalfSteps n * unitsPerDegree + unitsPerDegree := by
  unfold keptHalfSteps unitsPerDegree
  split <;> omega

/-- R68's fraction bit is set exactly where the magnitude is no whole number of degrees. -/
theorem fracBit_toNat (v : ℤ) : (fracBit v).toNat = if v.natAbs % unitsPerDegree = 0 then 0 else 1 := by
  have hrem : v - truncPart v * (unitsPerDegree : ℤ) = v.tmod unitsPerDegree := by
    rw [Int.tmod_def, truncPart, mul_comm]
  have hzero : v.tmod unitsPerDegree = 0 ↔ v.natAbs % unitsPerDegree = 0 := by
    rw [← Int.natAbs_eq_zero, Int.natAbs_tmod, Int.natAbs_natCast]
  simp only [fracBit, hrem, ne_eq, hzero]
  split <;> simp_all

/-- R69's m, for a magnitude whose half steps fit its 9 bits. -/
theorem encMagnitude_toNat {v : ℤ} (h : v.natAbs ≤ 128 * unitsPerDegree) : (encMagnitude v).toNat = keptHalfSteps v.natAbs := by
  have habs : (truncPart v).natAbs = v.natAbs / unitsPerDegree := Int.natAbs_tdiv v unitsPerDegree
  have hbit : (fracBit v).toNat < 2 ^ 1 := by
    rw [fracBit_toNat]
    split <;> decide
  have hshift : (BitVec.ofNat 9 (truncPart v).natAbs <<< 1).toNat = (v.natAbs / unitsPerDegree) <<< 1 := by
    rw [habs, BitVec.toNat_shiftLeft, BitVec.toNat_ofNat]
    unfold unitsPerDegree at *
    omega
  rw [encMagnitude, BitVec.toNat_or, hshift, ← Nat.shiftLeft_add_eq_or_of_lt hbit, fracBit_toNat, keptHalfSteps, Nat.shiftLeft_eq]
  ring

/-- R69's shift puts the field where R65 reads it. -/
theorem extract_encWord (v : ℤ) : (encWord v).extractLsb' 7 9 = encField v := by
  apply BitVec.eq_of_toNat_eq
  have hf : (encField v).toNat < 2 ^ 9 := (encField v).isLt
  rw [encWord, BitVec.extractLsb'_toNat, BitVec.toNat_shiftLeft, BitVec.toNat_setWidth, Nat.shiftLeft_eq, Nat.shiftRight_eq_div_pow]
  omega

/-- R71, in half steps: what the word of a value of the domain decodes to. -/
theorem decSteps_encWord {v : ℤ} (hl : -(128 * (unitsPerDegree : ℤ)) ≤ v) (hu : v < 128 * (unitsPerDegree : ℤ)) :
    decSteps 9 (encWord v) = if v < 0 then -(keptHalfSteps v.natAbs : ℤ) else keptHalfSteps v.natAbs := by
  have hm : (encMagnitude v).toNat = keptHalfSteps v.natAbs := encMagnitude_toNat (by omega)
  rw [decSteps_thr, extract_encWord, encField]
  split
  case isTrue hneg =>
    have hle : keptHalfSteps v.natAbs ≤ 256 := keptHalfSteps_le (by omega)
    rw [negField_eq_neg, BitVec.toInt_eq_toNat_cond, BitVec.toNat_neg, hm]
    split <;> omega
  case isFalse hpos =>
    have hlt : keptHalfSteps v.natAbs < 256 := keptHalfSteps_lt (by omega)
    rw [BitVec.toInt_eq_toNat_of_lt (by omega), hm]

/-- A threshold word holds one of the 512 half steps from -128.0 to 127.5. -/
theorem decSteps_thr_bounds (w : DeviceWord) : -256 ≤ decSteps 9 w ∧ decSteps 9 w ≤ 255 := by
  rw [decSteps_thr]
  have hl := BitVec.le_toInt (w.extractLsb' 7 9)
  have hu := BitVec.toInt_lt (x := w.extractLsb' 7 9)
  omega

theorem decValue_thr (w : DeviceWord) : decValue 9 1 w = (decSteps 9 w : ℚ) / 2 := by rw [decValue, pow_one]

/-- The word of a value of the domain decodes to a value less than 0.5 away, in units. -/
theorem decSteps_encWord_near {v : ℤ} (hl : -(128 * (unitsPerDegree : ℤ)) ≤ v) (hu : v < 128 * (unitsPerDegree : ℤ)) :
    |decSteps 9 (encWord v) * unitsPerDegree - 2 * v| < unitsPerDegree := by
  have hnear := keptHalfSteps_near v.natAbs
  rw [decSteps_encWord hl hu, abs_lt]
  unfold unitsPerDegree at *
  split <;> omega

/-- A distance in units, of j half steps from a value, as a distance in degrees. -/
theorem half_steps_near {j v : ℤ} {n : ℕ} (hn : 0 < n) (h : |j * n - 2 * v| < n) : |(j : ℚ) / 2 - (v : ℚ) / n| < 1 / 2 := by
  have hq : |(j : ℚ) * n - 2 * v| < n := by exact_mod_cast h
  have hpos : (0 : ℚ) < 2 * n := by positivity
  have hscale : (j : ℚ) / 2 - (v : ℚ) / n = (j * n - 2 * v) / (2 * n) := by field_simp
  rw [hscale, abs_div, abs_of_pos hpos, div_lt_div_iff₀ hpos two_pos]
  linarith

/-- R74's last part, over the value the pattern denotes. -/
theorem decValue_encWord_near {b : Pattern32} (hb : inDomain b = true) :
    |decValue 9 1 (encWord (realUnits b)) - real b| < 1 / 2 := by
  obtain ⟨-, hl, hu⟩ : classify b = .finite ∧ -(128 * (unitsPerDegree : ℤ)) ≤ realUnits b ∧
      realUnits b < 128 * (unitsPerDegree : ℤ) := by simpa [inDomain] using hb
  rw [decValue_thr]
  exact half_steps_near (by decide) (decSteps_encWord_near hl hu)

/-- Two half steps less than one half step apart are the same. -/
theorem half_steps_eq_of_near {j k : ℤ} (h : |(j : ℚ) / 2 - (k : ℚ) / 2| < 1 / 2) : j = k := by
  rw [← sub_div, abs_div, abs_two, div_lt_div_iff_of_pos_right two_pos] at h
  exact sub_eq_zero.mp (Int.abs_lt_one_iff.mp (by exact_mod_cast h))

/-- Settles O23: the word decodes to a half step less than 0.5 away, so a TIN that is itself a half step can only decode to itself. -/
theorem encodeIsLosslessOnHalfStepsOnly : Obligations.EncodeIsLosslessOnHalfStepsOnly := by
  intro s hfin hl hu
  have hd : inDomain s.ports.tin = true := (inDomain_iff _).mpr ⟨hfin, hl, hu⟩
  have hnear := decValue_encWord_near hd
  refine ⟨_, exec_enct_inDomain hd, ⟨fun hv => ?_, ?_⟩, hnear⟩
  · obtain ⟨hlo, hhi⟩ := decSteps_thr_bounds (encWord (realUnits s.ports.tin))
    exact ⟨_, hlo, hhi, by rw [← hv, decValue_thr]⟩
  · rintro ⟨k, -, -, hk⟩
    rw [decValue_thr, hk] at hnear ⊢
    rw [half_steps_eq_of_near hnear]

end Sys2Proof.CodecCommands
end

section
/-! SUPPORT. The configuration byte's commands (41_config_fields.md): a field's setter and getter as functions of the field, what an
OR-setter leaves in its own field (R81, R93), in the bits above the fields (R99) and in the bits already set, and the commands that
read and clear CFG whole (R82, R92). -/

namespace Sys2Proof.ConfigFields

open Sys2Proof Sys2Proof.Machine Sys2Proof.Safety

/-! ## CFG's fields, bit by bit -/

/-- Every field lies below RSV (R17, R22). -/
theorem shift_add_width_le (f : Field) : f.shift + f.width ≤ 5 := by cases f <;> decide

theorem getLsbD_ones (f : Field) (k : ℕ) : f.ones.getLsbD k = decide (k < f.width) := by
  have hw := shift_add_width_le f
  rw [Field.ones, BitVec.getLsbD_ofNat, Nat.testBit_two_pow_sub_one, Bool.and_eq_right_iff_imp]
  simp only [decide_eq_true_eq]
  omega

/-- The field's mask on the 2 bits of IMM2 and FOUT. -/
def mask (f : Field) : FieldValue := f.ones.setWidth 2

theorem getLsbD_mask (f : Field) {k : ℕ} (hk : k < 2) : (mask f).getLsbD k = decide (k < f.width) := by
  rw [mask, BitVec.getLsbD_setWidth, getLsbD_ones, decide_eq_true hk, Bool.true_and]

theorem getLsbD_getField (f : Field) (cfg : Byte) {k : ℕ} (hk : k < 2) :
    (getField f cfg).getLsbD k = (cfg.getLsbD (f.shift + k) && decide (k < f.width)) := by
  simp [getField, getLsbD_ones, hk]

theorem getLsbD_orField (f : Field) (val cfg : Byte) {k : ℕ} (hk : k < 8) :
    (orField f val cfg).getLsbD k =
      (cfg.getLsbD k || (!decide (k < f.shift) && (val.getLsbD (k - f.shift) && decide (k - f.shift < f.width)))) := by
  rw [orField, BitVec.getLsbD_or, BitVec.getLsbD_shiftLeft, BitVec.getLsbD_and, getLsbD_ones, decide_eq_true hk, Bool.true_and]

/-- A getter's mask and shift take the field's own bits (R87 to R90). -/
theorem getField_eq_extract (f : Field) (cfg : Byte) : getField f cfg = (cfg.extractLsb' f.shift f.width).setWidth 2 := by
  apply BitVec.eq_of_getLsbD_eq
  intro k hk
  rw [getLsbD_getField f cfg hk]
  simp [hk, Bool.and_comm]

/-- A 1-bit field is the one bit at its position, zero-extended. -/
theorem getField_bit {f : Field} (h : f.width = 1) (cfg : Byte) : getField f cfg = 0#1 ++ cfg.extractLsb' f.shift 1 := by
  rw [getField_eq_extract, h, BitVec.setWidth_eq_append (by decide)]
  rfl

theorem getField_zero (f : Field) : getField f 0x00 = 0#2 := by cases f <;> rfl

theorem rsvField_zero : rsvField 0x00 = 0#3 := by decide

/-- A setter leaves in its field the OR of the old value and its own, masked (R81, R93). -/
theorem getField_orField (f : Field) (v : FieldValue) (cfg : Byte) :
    getField f (orField f (v.setWidth 8) cfg) = getField f cfg ||| (v &&& mask f) := by
  apply BitVec.eq_of_getLsbD_eq
  intro k hk
  have hw := shift_add_width_le f
  rw [BitVec.getLsbD_or, getLsbD_getField _ _ hk, getLsbD_getField _ _ hk, BitVec.getLsbD_and, getLsbD_mask f hk]
  by_cases hkw : k < f.width
  · rw [getLsbD_orField _ _ _ (by omega)]
    simp [hk, hkw, show k < 8 by omega]
  · simp [hkw]

/-- A setter leaves RSV alone (R99). -/
theorem rsvField_orField (f : Field) (val cfg : Byte) : rsvField (orField f val cfg) = rsvField cfg := by
  apply BitVec.eq_of_getLsbD_eq
  intro k hk
  have hw := shift_add_width_le f
  have hout : ¬ 5 + k - f.shift < f.width := by omega
  simp [rsvField, slice_eq, hk, getLsbD_orField f val cfg (show 5 + k < 8 by omega), hout]

/-- A setter never clears a bit (R81). -/
theorem orField_and_self (f : Field) (val cfg : Byte) : orField f val cfg &&& cfg = cfg := by
  ext k hk
  simp only [orField, BitVec.getElem_and, BitVec.getElem_or]
  cases cfg[k] <;> simp

/-! ## A field's setter and getter -/

/-- The setter of a field. -/
def setterOf : Field → FieldValue → Instr
  | .sd => .setsd
  | .am => .setam
  | .ap => .setap
  | .fq => .setfq

/-- The getter of a field. -/
def getterOf : Field → Instr
  | .sd => .getsd
  | .am => .getam
  | .ap => .getap
  | .fq => .getfq

/-- IMM2[0] zero-extended is IMM2 under a 1-bit field's mask. -/
theorem immBit_and_one : ∀ imm2 : FieldValue, immBit imm2 &&& 1#8 = imm2.setWidth 8 &&& 1#8 := by decide

/-- Every setter is R81's SET on IMM2: a 1-bit field's mask leaves only the IMM2[0] it takes. -/
theorem exec_setterOf (f : Field) (imm2 : FieldValue) (s : State) :
    exec (setterOf f imm2) s = setCommand f (imm2.setWidth 8) s := by
  have hone : ∀ g : Field, g.ones = 1#8 → orField g (immBit imm2) s.cfg = orField g (imm2.setWidth 8) s.cfg := by
    intro g hg
    rw [orField, orField, hg, immBit_and_one]
  cases f with
  | sd => rw [setterOf, exec_setsd, setCommand_eq, hone .sd rfl, setCommand_eq]
  | am => rw [setterOf, exec_setam, setCommand_eq, hone .am rfl, setCommand_eq]
  | ap => rw [setterOf, exec_setap, setCommand_eq, hone .ap rfl, setCommand_eq]
  | fq => exact exec_setfq imm2 s

theorem exec_getterOf (f : Field) (s : State) : exec (getterOf f) s = getCommand f s := by
  cases f with
  | sd => exact exec_getsd s
  | am => exact exec_getam s
  | ap => exact exec_getap s
  | fq => exact exec_getfq s

/-- A 1-bit field's getter drives the one bit at its position, zero-extended (R87 to R89). -/
theorem exec_getterOf_bit {f : Field} (h : f.width = 1) (s : State) :
    exec (getterOf f) s = .next { s with result := .field (0#1 ++ s.cfg.extractLsb' f.shift 1) } := by
  rw [exec_getterOf, getCommand_eq, getField_bit h]

/-- SETFQ's value fills its field, so the mask drops nothing (R86). -/
theorem exec_setfq_eq (fq : FieldValue) (s : State) :
    exec (.setfq fq) s = .next { s with cfg := s.cfg ||| (fq.setWidth 8 <<< 3), result := .noResult } := by
  have hmask : ∀ v : FieldValue, v.setWidth 8 &&& Field.fq.ones = v.setWidth 8 := by decide
  rw [exec_setfq, setCommand_eq, orField, immPair, hmask]
  rfl

/-- A word of SETFQ's OP decodes to SETFQ of its IMM2 unless RSV is not zero (R54): no IMM2 is misused (R49). -/
theorem decode_setfq_op {w : Byte} (h : cmdOp w = 0x8#4) :
    decode w = if cmdRsv w ≠ 0#2 then .error .rsvNotZero else .ok (.setfq (cmdImm2 w)) := by
  simp [decode, h]

/-! ## Runs of configuration commands -/

theorem execAll_cons_of_next {i : Instr} {is : List Instr} {s t : State} (h : exec i s = .next t) :
    execAll (i :: is) s = execAll is t := by
  rw [execAll, h]

/-- Setters alone complete and leave RSV alone. -/
theorem execAll_setters_rsvField {is : List Instr} (h : ∀ i ∈ is, setterField i ≠ none) (s : State) :
    ∃ t : State, execAll is s = .next t ∧ rsvField t.cfg = rsvField s.cfg := by
  induction is generalizing s with
  | nil => exact ⟨s, rfl, rfl⟩
  | cons i is ih =>
    obtain ⟨hi, his⟩ := List.forall_mem_cons.mp h
    obtain ⟨f, hf⟩ := Option.ne_none_iff_exists'.mp hi
    obtain ⟨val, hval⟩ := exec_setter hf
    obtain ⟨t, ht, hrsv⟩ := ih his ((s.writeCfg (orField f val s.cfg)).drive .noResult)
    refine ⟨t, ?_, hrsv.trans (rsvField_orField f val s.cfg)⟩
    rw [execAll_cons_of_next (hval s)]
    exact ht

/-- A value is legal for a field when it is within the field's width. -/
def Fits (f : Field) (v : FieldValue) : Prop := v &&& mask f = v

theorem fits_bit (f : Field) (v : BitVec 1) : Fits f (0#1 ++ v) := by
  unfold Fits
  revert v
  cases f <;> decide

theorem fits_fq (v : FieldValue) : Fits .fq v := BitVec.and_allOnes

/-- A getter drives what a setter of its field, with a legal value, adds to the field's old value. -/
theorem execAll_set_get {f : Field} {v : FieldValue} (hv : Fits f v) (s : State) :
    ∃ t : State, execAll [setterOf f v, getterOf f] s = .next t ∧ t.fout = some (getField f s.cfg ||| v) := by
  refine ⟨_, (execAll_cons_of_next (exec_setterOf f v s)).trans (execAll_cons_of_next (exec_getterOf f _)), ?_⟩
  rw [State.drive_field_fout, State.drive_cfg, State.writeCfg_cfg, getField_orField, hv]

theorem execAll_cfgdef_set_get {f : Field} {v : FieldValue} (hv : Fits f v) (s : State) :
    ∃ t : State, execAll [.cfgdef, setterOf f v, getterOf f] s = .next t ∧ t.fout = some v := by
  obtain ⟨t, ht, hfout⟩ := execAll_set_get hv ((s.writeCfg 0x00).drive .noResult)
  refine ⟨t, (execAll_cons_of_next (exec_cfgdef s)).trans ht, ?_⟩
  rw [hfout, State.drive_cfg, State.writeCfg_cfg, getField_zero, BitVec.zero_or]

/-- Two setters of one field from CFGDEF leave the OR of their values, which is the second value only where that covers the first. -/
theorem execAll_cfgdef_set_set_get {f : Field} {a v : FieldValue} (ha : Fits f a) (hv : Fits f v) (s : State) :
    ∃ t : State, execAll [.cfgdef, setterOf f a, setterOf f v, getterOf f] s = .next t ∧ (t.fout = some v ↔ a ||| v = v) := by
  obtain ⟨t, ht, hfout⟩ := execAll_set_get hv
    ((((s.writeCfg 0x00).drive .noResult).writeCfg (orField f (a.setWidth 8) 0x00)).drive .noResult)
  refine ⟨t, ?_, ?_⟩
  · rw [execAll_cons_of_next (exec_cfgdef s), execAll_cons_of_next (exec_setterOf f a _)]
    exact ht
  · rw [hfout, State.drive_cfg, State.writeCfg_cfg, getField_orField, getField_zero, BitVec.zero_or, ha, Option.some_inj]

/-- The covering condition on a 1-bit field's value, read of the bit itself. -/
theorem bit_or_eq_iff : ∀ a v : BitVec 1, (0#1 ++ a) ||| (0#1 ++ v) = 0#1 ++ v ↔ a ||| v = v := by decide

theorem execAll_cfgdef_set_set_get_bit (f : Field) (a v : BitVec 1) (s : State) :
    ∃ t : State, execAll [.cfgdef, setterOf f (0#1 ++ a), setterOf f (0#1 ++ v), getterOf f] s = .next t ∧
      (t.fout = some (0#1 ++ v) ↔ a ||| v = v) := by
  obtain ⟨t, ht, hfout⟩ := execAll_cfgdef_set_set_get (fits_bit f a) (fits_bit f v) s
  exact ⟨t, ht, hfout.trans (bit_or_eq_iff a v)⟩

/-! ## The statements -/

/-- Settles O35: the bits CFGRD returns above the fields are RSV, which CFGDEF clears and no setter reaches. -/
theorem cfgrdReadsTheWholeByte : Obligations.CfgrdReadsTheWholeByte := by
  refine ⟨rfl, rfl, exec_cfgrd, fun s t h => ?_, fun is his s => ?_, fun s hs => ⟨?_, rfl⟩⟩
  · rw [exec_cfgld] at h
    cases h
    exact exec_cfgrd _
  · obtain ⟨t, ht, hrsv⟩ := execAll_setters_rsvField his ((s.writeCfg 0x00).drive .noResult)
    exact ⟨t, t.cfg, (execAll_cons_of_next (exec_cfgdef s)).trans ht, exec_cfgrd t, hrsv.trans rsvField_zero⟩
  · rw [exec_cfgrd, ← hs]
    rfl

/-- Settles O40: a field that CFGDEF cleared reads back the OR of the legal values set since. -/
theorem getAfterSetFromDefault : Obligations.GetAfterSetFromDefault :=
  ⟨fun v s => ⟨execAll_cfgdef_set_get (fits_bit .sd v) s, execAll_cfgdef_set_get (fits_bit .am v) s,
      execAll_cfgdef_set_get (fits_bit .ap v) s⟩,
    fun v s => execAll_cfgdef_set_get (fits_fq v) s,
    fun a v s => ⟨execAll_cfgdef_set_set_get_bit .sd a v s, execAll_cfgdef_set_set_get_bit .am a v s,
      execAll_cfgdef_set_set_get_bit .ap a v s⟩,
    fun a v s => execAll_cfgdef_set_set_get (fits_fq a) (fits_fq v) s⟩

/-- Settles O27: CFGDEF's state has CFG = 0x00 and no result already, so a second CFGDEF finds nothing to change. -/
theorem cfgdefStartsFresh : Obligations.CfgdefStartsFresh := by
  refine ⟨rfl, rfl, exec_cfgdef, fun s t h => ?_⟩
  rw [exec_cfgdef] at h
  cases h
  exact ⟨rsvField_zero, exec_cfgdef _⟩

/-- Settles O31: SETFQ is R81's SET on CFG[4:3], and of the decoder's checks its OP leaves only RSV's. -/
theorem setfqOrsBitsThreeAndFour : Obligations.SetfqOrsBitsThreeAndFour := by
  refine ⟨by decide, exec_setfq_eq, fun s => ?_, fun fq s t h => ?_, fun s hs => ?_, fun s p ps hf hp hop => ?_⟩
  · rw [exec_setfq_eq]
    simp
  · rw [exec_setfq, setCommand_eq] at h
    cases h
    refine ⟨?_, orField_outside .fq (immPair fq) s.cfg⟩
    have hor := getField_orField .fq fq s.cfg
    rw [fits_fq fq, getField_eq_extract, getField_eq_extract] at hor
    exact hor
  · rw [exec_setfq_eq, hs]
    rfl
  · rw [step_presented hf hp, decode_setfq_op hop]
    by_cases hr : cmdRsv p.cmd = 0#2
    · simp [hr, exec_setfq_eq, show p.cmd.extractLsb' 6 2 = 0#2 from hr]
    · simp [hr, show p.cmd.extractLsb' 6 2 ≠ 0#2 from hr]

/-- Settles O32: each getter drives the one bit at its field's position; the examples are that bit of their bytes. -/
theorem oneBitGettersReadTheirBit : Obligations.OneBitGettersReadTheirBit := by
  refine ⟨rfl, rfl, rfl, rfl, rfl, rfl, fun s => ⟨exec_getterOf_bit (f := .sd) rfl s, exec_getterOf_bit (f := .am) rfl s,
      exec_getterOf_bit (f := .ap) rfl s⟩,
    fun s hs => ?_, fun s hs => ?_, fun s hs => ?_⟩
  · rw [exec_getsd, getCommand_eq, hs]
    rfl
  · rw [exec_getam, getCommand_eq, hs]
    rfl
  · rw [exec_getap, getCommand_eq, hs]
    rfl

/-- Settles O36: each setter is its field's SET on IMM2, and an OR keeps the bits of either side. -/
theorem settersOrAndNeverClear : Obligations.SettersOrAndNeverClear := by
  refine ⟨fun imm2 s => ⟨exec_setterOf .sd imm2 s, exec_setterOf .am imm2 s, exec_setterOf .ap imm2 s, exec_setterOf .fq imm2 s⟩,
    fun i s t hi h => ?_⟩
  obtain ⟨f, hf⟩ := Option.ne_none_iff_exists'.mp hi
  obtain ⟨val, hval⟩ := exec_setter hf
  rw [hval, setCommand_eq] at h
  cases h
  exact orField_and_self f val s.cfg

end Sys2Proof.ConfigFields
end

section
/-! SUPPORT. What executing a command can do, said once over all commands (10_state.md R16, R26, 30_encoding.md R50), and what follows
of every command alike: its frame, that it completes, and that issuing it again changes nothing (20_memory.md R36). -/

namespace Sys2Proof.CommandEffects

open Sys2Proof Sys2Proof.Machine Sys2Proof.Safety

/-- Everything a command can do: put a value in CFG with no result (R16), drive a result (R26), or, for ENCT outside its domain,
fault (R67). -/
theorem exec_cases (i : Instr) (s : State) :
    (writesCfg i = true ∧ ∃ v : Byte, exec i s = .next ((s.writeCfg v).drive .noResult)) ∨
    (writesCfg i = false ∧ ∃ r : Result, exec i s = .next (s.drive r) ∧ r ≠ .noResult) ∨
    (i = .enct ∧ inDomain s.ports.tin = false ∧ exec i s = .fault (.encodeDomain s.ports.tin)) := by
  cases hw : writesCfg i with
  | true => exact .inl ⟨rfl, CfgBlind.exec_writesCfg hw s⟩
  | false =>
    cases i with
    | decm => exact .inr (.inl ⟨rfl, _, exec_decm s, nofun⟩)
    | dect => exact .inr (.inl ⟨rfl, _, exec_dect s, nofun⟩)
    | enct =>
      cases hd : inDomain s.ports.tin with
      | true => exact .inr (.inl ⟨rfl, _, exec_enct_inDomain hd, nofun⟩)
      | false => exact .inr (.inr ⟨rfl, rfl, exec_enct_outside hd⟩)
    | getsd => exact .inr (.inl ⟨rfl, _, exec_getsd s, nofun⟩)
    | getam => exact .inr (.inl ⟨rfl, _, exec_getam s, nofun⟩)
    | getap => exact .inr (.inl ⟨rfl, _, exec_getap s, nofun⟩)
    | getfq => exact .inr (.inl ⟨rfl, _, exec_getfq s, nofun⟩)
    | cfgrd => exact .inr (.inl ⟨rfl, _, exec_cfgrd s, nofun⟩)
    | cfgdef | setsd | setam | setap | setfq | cfgld => cases hw

/-- ENCT alone faults, and only outside its domain (R67, R70). -/
theorem exec_fault {i : Instr} {s : State} {f : Fault} (h : exec i s = .fault f) :
    i = .enct ∧ inDomain s.ports.tin = false ∧ f = .encodeDomain s.ports.tin := by
  obtain ⟨-, v, hv⟩ | ⟨-, r, hr, -⟩ | ⟨hi, hd, hf⟩ := exec_cases i s
  · cases hv.symm.trans h
  · cases hr.symm.trans h
  · cases hf.symm.trans h
    exact ⟨hi, hd, rfl⟩

/-- No command is refused. -/
theorem exec_ne_refused (i : Instr) (s : State) (r : Refusal) : exec i s ≠ .refused r := by
  intro h
  obtain ⟨-, v, hv⟩ | ⟨-, r, hr, -⟩ | ⟨-, -, hf⟩ := exec_cases i s
  · cases hv.symm.trans h
  · cases hr.symm.trans h
  · cases hf.symm.trans h

/-- A command completes unless it is an ENCT outside its domain. -/
theorem exec_completes {i : Instr} {s : State} (h : i = .enct → inDomain s.ports.tin = true) : ∃ t : State, exec i s = .next t := by
  cases he : exec i s with
  | next t => exact ⟨t, rfl⟩
  | fault f =>
    obtain ⟨hi, hd, -⟩ := exec_fault he
    simp [h hi] at hd
  | refused r => exact absurd he (exec_ne_refused i s r)

theorem exec_ne_reservedCommand (i : Instr) (s : State) (cmd : Byte) : exec i s ≠ .fault (.reservedCommand cmd) :=
  fun h => nomatch (exec_fault h).2.2

/-- What no command that completes changes: the ports, the stream and the fault record. -/
theorem exec_frame {i : Instr} {s t : State} (h : exec i s = .next t) : t = { s with cfg := t.cfg, result := t.result } := by
  obtain ⟨-, v, hv⟩ | ⟨-, r, hr, -⟩ | ⟨-, -, hf⟩ := exec_cases i s
  · cases hv.symm.trans h
    rfl
  · cases hr.symm.trans h
    rfl
  · cases hf.symm.trans h

theorem exec_pending {i : Instr} {s t : State} (h : exec i s = .next t) : t.pending = s.pending := by
  rw [exec_frame h]

theorem exec_faultRecord {i : Instr} {s t : State} (h : exec i s = .next t) : t.faultRecord = s.faultRecord := by
  rw [exec_frame h]

/-- A step is never refused. -/
theorem step_ne_refused (s : State) (r : Refusal) : step s ≠ .refused r := by
  intro h
  cases hf : s.faultRecord with
  | some f => simp [step_faulted hf] at h
  | none =>
    cases hp : s.pending with
    | nil => simp [step, hf, fetch_nil hp] at h
    | cons p ps =>
      rw [step_presented hf hp] at h
      cases hd : decode p.cmd with
      | error e => simp [hd] at h
      | ok i => exact exec_ne_refused i _ r (by simpa [hd] using h)

/-- ORing a setter's value in again changes nothing (R81). -/
theorem orField_orField_same (f : Field) (val cfg : Byte) : orField f val (orField f val cfg) = orField f val cfg := by
  rw [orField, orField, BitVec.or_assoc, BitVec.or_self]

/-- Settles O44: what a command can do, case by case. -/
theorem commandsChangeOnlyCfgAndResult : Obligations.CommandsChangeOnlyCfgAndResult := by
  intro i s t h
  refine ⟨exec_frame h, ?_⟩
  obtain ⟨hw, v, hv⟩ | ⟨hw, r, hr, hne⟩ | ⟨-, -, hf⟩ := exec_cases i s
  · cases hv.symm.trans h
    simp [hw]
  · cases hr.symm.trans h
    simp [hw, hne]
  · cases hf.symm.trans h

/-- Settles O46: ENCT alone can fail to complete, and its domain is the one R67 gives over the rationals. -/
theorem everyCommandCompletes : Obligations.EveryCommandCompletes :=
  ⟨fun _ _ hi => exec_completes fun h => absurd h hi,
    fun _ hfin hl hu => exec_completes fun _ => (inDomain_iff _).mpr ⟨hfin, hl, hu⟩, step_ne_refused⟩

/-- Settles O47: a command keeps the operands it reads, and what it wrote in CFG is what it writes again. -/
theorem commandsAreIdempotent : Obligations.CommandsAreIdempotent := by
  intro i s t h
  cases hset : setterField i with
  | some f =>
    obtain ⟨val, hval⟩ := exec_setter hset
    rw [hval, setCommand_eq] at h ⊢
    cases h
    rw [orField_orField_same]
  | none =>
    cases i with
    | enct =>
      cases hd : inDomain s.ports.tin with
      | true =>
        cases (exec_enct_inDomain hd).symm.trans h
        exact exec_enct_inDomain hd
      | false => cases (exec_enct_outside hd).symm.trans h
    | setsd | setam | setap | setfq => cases hset
    | decm | dect | cfgdef | getsd | getam | getap | getfq | cfgld | cfgrd =>
      cases h
      rfl

end Sys2Proof.CommandEffects
end

section
/-! SUPPORT. The command encoding (30_encoding.md R47 to R57): a word is its three fields, decode and encode are inverse on the
well-formed commands, and which words are reserved. -/

namespace Sys2Proof.Encoding

open Sys2Proof Sys2Proof.Machine Sys2Proof.Safety

/-! ## A word and its fields -/

@[simp] theorem cmdRsv_cmdWord (imm2 : FieldValue) (op : BitVec 4) : cmdRsv (cmdWord imm2 op) = 0#2 := by
  revert imm2 op
  decide

@[simp] theorem cmdImm2_cmdWord (imm2 : FieldValue) (op : BitVec 4) : cmdImm2 (cmdWord imm2 op) = imm2 := by
  revert imm2 op
  decide

@[simp] theorem cmdOp_cmdWord (imm2 : FieldValue) (op : BitVec 4) : cmdOp (cmdWord imm2 op) = op :=
  BitVec.extractLsb'_append_eq_right

/-- A word with RSV = 0 is made of its IMM2 and its OP (R48). -/
theorem cmdWord_fields {w : Byte} (h : cmdRsv w = 0#2) : cmdWord (cmdImm2 w) (cmdOp w) = w := by
  have hsplit : cmdRsv w ++ cmdImm2 w ++ cmdOp w = w := by
    rw [cmdRsv, cmdImm2, cmdOp, BitVec.extractLsb'_append_extractLsb'_eq_extractLsb' (by rfl),
      BitVec.extractLsb'_append_extractLsb'_eq_extractLsb' (by rfl)]
    exact BitVec.extractLsb'_eq_self
  rwa [h] at hsplit

/-- An answer that holds a value is that value. -/
theorem exists_ok_of_isSome {ε α : Type} {x : Except ε α} (h : x.toOption.isSome = true) : ∃ a, x = .ok a := by
  cases x with
  | ok a => exact ⟨a, rfl⟩
  | error e => cases h

/-! ## Decode and encode -/

/-- An accepted command without a field value is encoded as its OP alone (R50). -/
theorem decodePlain_ok {op : BitVec 4} {i : Instr} (h : decodePlain op = .ok i) :
    i.wf = true ∧ encode i = cmdWord 0#2 op := by
  unfold decodePlain at h
  split_ifs at h <;> cases h <;> subst op <;> exact ⟨rfl, rfl⟩

theorem decodeOneBit_eq_ok {setter : FieldValue → Instr} {imm2 : FieldValue} {i : Instr} :
    decodeOneBit setter imm2 = .ok i ↔ oneBitImm imm2 = true ∧ setter imm2 = i := by
  cases h : imm2[1] <;> simp [decodeOneBit, oneBitImm, h]

/-- An accepted 1-bit setter has an encoding, which is its IMM2 over its OP (R55). -/
theorem decodeOneBit_ok {setter : FieldValue → Instr} {imm2 : FieldValue} {op : BitVec 4} {i : Instr}
    (hwf : ∀ v, (setter v).wf = oneBitImm v) (henc : ∀ v, encode (setter v) = cmdWord v op)
    (h : decodeOneBit setter imm2 = .ok i) : i.wf = true ∧ encode i = cmdWord imm2 op := by
  obtain ⟨himm, rfl⟩ := decodeOneBit_eq_ok.mp h
  exact ⟨(hwf imm2).trans himm, henc imm2⟩

/-- Everything the decoder can have found in a word it accepts. -/
theorem decode_ok {w : Byte} {i : Instr} (h : decode w = .ok i) :
    cmdRsv w = 0#2 ∧ i.wf = true ∧ encode i = cmdWord (cmdImm2 w) (cmdOp w) := by
  by_cases hrsv : cmdRsv w = 0#2
  case neg => simp [decode, hrsv] at h
  simp only [decode, hrsv, ne_eq, not_true_eq_false, if_false, ite_not] at h
  refine ⟨hrsv, ?_⟩
  split_ifs at h with hop h8 h5 h6 h7 himm
  · cases h
    exact ⟨rfl, by rw [h8]; rfl⟩
  · exact decodeOneBit_ok (fun _ => rfl) (fun _ => h5 ▸ rfl) h
  · exact decodeOneBit_ok (fun _ => rfl) (fun _ => h6 ▸ rfl) h
  · exact decodeOneBit_ok (fun _ => rfl) (fun _ => h7 ▸ rfl) h
  · exact himm ▸ decodePlain_ok h

/-- A word that decodes is the word of its command (R56). -/
theorem encode_of_decode {w : Byte} {i : Instr} (h : decode w = .ok i) : i.wf = true ∧ encode i = w := by
  obtain ⟨hrsv, hwf, henc⟩ := decode_ok h
  exact ⟨hwf, henc.trans (cmdWord_fields hrsv)⟩

/-- A well-formed command's word decodes to it. -/
theorem decode_encode {i : Instr} (h : i.wf = true) : decode (encode i) = .ok i := by
  cases i with
  | setsd imm2 | setam imm2 | setap imm2 => simpa [decode, encode] using decodeOneBit_eq_ok.mpr ⟨h, rfl⟩
  | setfq imm2 => simp [decode, encode]
  | decm | dect | enct | cfgdef | getsd | getam | getap | getfq | cfgld | cfgrd => rfl

/-- Settles O9: decode's inversion lemma and the words of the well-formed commands. -/
theorem decodeAndEncodeAgree : Obligations.DecodeAndEncodeAgree :=
  ⟨fun _ => decode_encode, fun _ _ => encode_of_decode⟩

/-! ## Reserved words -/

/-- R50 gives a command to every OP but 0x0, 0xF and the setters'. -/
theorem decodePlain_complete {op : BitVec 4} (h : op ∉ [0x0#4, 0xF#4, 0x5#4, 0x6#4, 0x7#4, 0x8#4]) :
    ∃ i, decodePlain op = .ok i := by
  apply exists_ok_of_isSome
  revert op
  decide

theorem decodeOneBit_eq_error_iff {setter : FieldValue → Instr} {imm2 : FieldValue} :
    (∃ e, decodeOneBit setter imm2 = .error e) ↔ imm2[1] = true := by
  cases h : imm2[1] <;> simp [decodeOneBit, h]

/-- The reserved words (R53 to R55), by their fields. -/
theorem decode_eq_error_iff {w : Byte} :
    (∃ e, decode w = .error e) ↔
      cmdRsv w ≠ 0#2 ∨ cmdOp w = 0x0#4 ∨ cmdOp w = 0xF#4 ∨
      (cmdOp w ∉ [0x5#4, 0x6#4, 0x7#4, 0x8#4] ∧ cmdImm2 w ≠ 0#2) ∨
      (cmdOp w ∈ [0x5#4, 0x6#4, 0x7#4] ∧ (cmdImm2 w)[1] = true) := by
  by_cases hrsv : cmdRsv w = 0#2
  case neg => simp [decode, hrsv]
  simp only [decode, hrsv, ne_eq, not_true_eq_false, if_false, false_or]
  split_ifs with hop h8 h5 h6 h7 himm
  · simp only [Except.error.injEq, exists_eq', true_iff]
    exact hop.elim .inl (.inr ∘ .inl)
  · simp [h8]
  · simp [h5, decodeOneBit_eq_error_iff]
  · simp [h6, decodeOneBit_eq_error_iff]
  · simp [h7, decodeOneBit_eq_error_iff]
  · obtain ⟨i, hi⟩ := decodePlain_complete (op := cmdOp w) (by simp_all)
    simp [hi, himm, h5, h6, h7, not_or.mp hop]
  · simp [h5, h6, h7, h8, himm]

theorem step_eq_reservedCommand_iff {s : State} {p : Ports} {ps : List Ports} (hf : s.faultRecord = none)
    (hp : s.pending = p :: ps) : step s = .fault (.reservedCommand p.cmd) ↔ ∃ e, decode p.cmd = .error e := by
  rw [step_presented hf hp]
  cases hd : decode p.cmd with
  | error e => simp
  | ok i => simp [CommandEffects.exec_ne_reservedCommand]

/-- Settles O4: the decoder alone raises ReservedCommand, and its errors are the reserved words. -/
theorem reservedWordsFaultAndNoOthers : Obligations.ReservedWordsFaultAndNoOthers := by
  intro s p ps hf hp
  have hbit : (cmdImm2 p.cmd)[1] = p.cmd[5] := by simp [cmdImm2]
  rw [step_eq_reservedCommand_iff hf hp, decode_eq_error_iff, hbit]
  rfl

/-! ## The opcode map -/

/-- A well-formed command's word matches the rows of its mnemonic and no others (R50), command by command. -/
theorem encodesInRow (i : Instr) : Laws.EncodesInRow.Statement i := by
  cases i with
  | decm => exact Laws.EncodesInRow.decm
  | dect => exact Laws.EncodesInRow.dect
  | enct => exact Laws.EncodesInRow.enct
  | cfgdef => exact Laws.EncodesInRow.cfgdef
  | setsd imm2 => exact Laws.EncodesInRow.setsd imm2
  | setam imm2 => exact Laws.EncodesInRow.setam imm2
  | setap imm2 => exact Laws.EncodesInRow.setap imm2
  | setfq imm2 => exact Laws.EncodesInRow.setfq imm2
  | getsd => exact Laws.EncodesInRow.getsd
  | getam => exact Laws.EncodesInRow.getam
  | getap => exact Laws.EncodesInRow.getap
  | getfq => exact Laws.EncodesInRow.getfq
  | cfgld => exact Laws.EncodesInRow.cfgld
  | cfgrd => exact Laws.EncodesInRow.cfgrd

theorem mnemonics_nodup : (opcodeMap.map OpcodeRow.mnemonic).Nodup := by decide

/-- A well-formed command's word matches a row of its mnemonic. -/
theorem exists_row_matching {i : Instr} (h : i.wf = true) :
    ∃ r ∈ opcodeMap, r.matchesWord (encode i) = true ∧ r.mnemonic = i.mnemonic := by
  have hmem : i.mnemonic ∈ (opcodeMap.filter fun r => r.matchesWord (encode i)).map OpcodeRow.mnemonic := by
    rw [encodesInRow i h]
    exact List.mem_singleton_self _
  obtain ⟨r, hr, hmn⟩ := List.mem_map.mp hmem
  obtain ⟨hrow, hmatch⟩ := List.mem_filter.mp hr
  exact ⟨r, hrow, hmatch, hmn⟩

/-- A row that a well-formed command's word matches has its mnemonic. -/
theorem mnemonic_of_matchesWord {i : Instr} (h : i.wf = true) {r : OpcodeRow} (hr : r ∈ opcodeMap)
    (hm : r.matchesWord (encode i) = true) : r.mnemonic = i.mnemonic := by
  have hmem : r.mnemonic ∈ (opcodeMap.filter fun q => q.matchesWord (encode i)).map OpcodeRow.mnemonic :=
    List.mem_map_of_mem (List.mem_filter.mpr ⟨hr, hm⟩)
  rw [encodesInRow i h] at hmem
  exact List.mem_singleton.mp hmem

/-- Every word of a row decodes. -/
theorem decode_ok_of_matchesWord {w : Byte} {r : OpcodeRow} (hr : r ∈ opcodeMap) (hm : r.matchesWord w = true) :
    ∃ i, decode w = .ok i := by
  have hsome : ∀ q ∈ opcodeMap, ∀ v : Byte, q.matchesWord v = true → (decode v).toOption.isSome = true := by decide
  exact exists_ok_of_isSome (hsome r hr w hm)

/-- Settles O11: a word that decodes is its command's word, which matches the one row with the command's mnemonic. -/
theorem opcodeMapRowsAreTheDecoder : Obligations.OpcodeMapRowsAreTheDecoder := by
  refine ⟨fun w r hr => ?_, fun w i hd => ?_⟩
  · rw [← beq_iff_eq, ← OpcodeRow.matchesWord]
    constructor
    · intro hm
      obtain ⟨i, hd⟩ := decode_ok_of_matchesWord hr hm
      obtain ⟨hwf, rfl⟩ := encode_of_decode hd
      exact ⟨i, hd, (mnemonic_of_matchesWord hwf hr hm).symm⟩
    · rintro ⟨i, hd, hmn⟩
      obtain ⟨hwf, rfl⟩ := encode_of_decode hd
      obtain ⟨q, hq, hmatch, hqm⟩ := exists_row_matching hwf
      rwa [← List.inj_on_of_nodup_map mnemonics_nodup hq hr (hqm.trans hmn)]
  · obtain ⟨r, hr, -, hmn⟩ := exists_row_matching (encode_of_decode hd).1
    exact ⟨r, hr, hmn⟩

/-! ## Fixed words -/

/-- Settles O8: the decoder evaluated on each of the words. -/
theorem specWordsDecode : Obligations.SpecWordsDecode :=
  ⟨rfl, rfl, rfl, rfl, rfl, rfl, rfl, rfl, rfl, rfl, rfl, rfl⟩

/-- Settles O10: the decoder evaluated on each of the 256 words. -/
theorem twentyWordsAreValid : Obligations.TwentyWordsAreValid := by
  unfold Obligations.TwentyWordsAreValid
  rfl

end Sys2Proof.Encoding
end

section
/-! SUPPORT. Steps and runs (20_memory.md R37, 60_exceptions.md R101 to R103): a safe command's step, a run over safe commands, the
fault that ends a run, and a presented program as its commands. -/

namespace Sys2Proof.Runs

open Sys2Proof Sys2Proof.Machine Sys2Proof.Safety

/-! ## Steps -/

/-- A step with a command to come whose word decodes is that command. -/
theorem step_decoded {s : State} {p : Ports} {ps : List Ports} {i : Instr} (hf : s.faultRecord = none)
    (hp : s.pending = p :: ps) (hd : decode p.cmd = .ok i) : step s = exec i { s with ports := p, pending := ps } := by
  rw [step_presented hf hp, hd]

theorem step_idle {s : State} (hf : s.faultRecord = none) (hp : s.pending = []) : step s = .next s.idle := by
  simp [step, hf, fetch_nil hp]

/-- A step that answers a next state keeps the fault record clear and takes the first command off the stream. -/
theorem step_next_frame {s t : State} (h : step s = .next t) : t.faultRecord = none ∧ t.pending = s.pending.tail := by
  obtain ⟨hf, ⟨hp, rfl⟩ | ⟨p, ps, i, hp, -, hexec⟩⟩ := step_next_cases h
  · simp [hf, hp]
  · exact ⟨(CommandEffects.exec_faultRecord hexec).trans hf, by rw [CommandEffects.exec_pending hexec, hp, List.tail_cons]⟩

/-- A safe command is one whose word decodes and, for ENCT, whose TIN is in the domain (R101). -/
theorem safeCommand_iff {p : Ports} :
    safeCommand p = true ↔ ∃ i, decode p.cmd = .ok i ∧ (i = .enct → inDomain p.tin = true) := by
  cases hd : decode p.cmd with
  | error e => simp [safeCommand, hd]
  | ok i => cases i <;> simp [safeCommand, hd]

/-- A safe command's step completes. -/
theorem step_safe {s : State} {p : Ports} {ps : List Ports} (hf : s.faultRecord = none) (hp : s.pending = p :: ps)
    (hsafe : safeCommand p = true) : ∃ t : State, step s = .next t := by
  obtain ⟨i, hd, hdom⟩ := safeCommand_iff.mp hsafe
  rw [step_decoded hf hp hd]
  exact CommandEffects.exec_completes hdom

/-- The step of a command that is not safe answers its fault (R101, R103). -/
theorem step_unsafe {s : State} {p : Ports} {ps : List Ports} (hf : s.faultRecord = none) (hp : s.pending = p :: ps)
    (hunsafe : safeCommand p = false) : step s = .fault (faultOf p) := by
  cases hd : decode p.cmd with
  | error e => simp [step_presented hf hp, faultOf, hd]
  | ok i =>
    rw [← Bool.not_eq_true, safeCommand_iff] at hunsafe
    obtain ⟨rfl, hdom⟩ : i = .enct ∧ inDomain p.tin = false := by simpa [hd] using hunsafe
    rw [step_decoded hf hp hd, faultOf, hd]
    exact exec_enct_outside hdom

/-- Settles O3: the step rule for a word that decodes. -/
theorem stepRunsTheDecodedCommand : Obligations.StepRunsTheDecodedCommand :=
  fun _ _ _ _ => step_decoded

/-- Settles O5: the step rule for an empty stream. -/
theorem noCommandPresentedIdles : Obligations.NoCommandPresentedIdles :=
  fun _ => step_idle

/-! ## Runs -/

theorem run_succ_of_next {s t : State} (h : step s = .next t) (k : ℕ) :
    Host.Core.run Sys2Proof.core (k + 1) s = Host.Core.run Sys2Proof.core k t := by
  simp [Host.Core.run, core, h]

theorem run_succ_of_fault {s : State} {f : Fault} (h : step s = .fault f) (k : ℕ) :
    Host.Core.run Sys2Proof.core (k + 1) s = .fault f := by
  simp [Host.Core.run, core, h]

/-- A safe state's step answers a safe state. -/
theorem step_of_safeState {s : State} (h : SafeState s) :
    ∃ t : State, step s = .next t ∧ SafeState t ∧ t.pending = s.pending.tail := by
  obtain ⟨hf, hsafe⟩ := h
  have hnext : ∃ t : State, step s = .next t := by
    cases hp : s.pending with
    | nil => exact ⟨_, step_idle hf hp⟩
    | cons p ps => exact step_safe hf hp (hsafe p (by simp [hp]))
  obtain ⟨t, ht⟩ := hnext
  obtain ⟨htf, htp⟩ := step_next_frame ht
  exact ⟨t, ht, ⟨htf, fun p hp => hsafe p (List.mem_of_mem_tail (htp ▸ hp))⟩, htp⟩

/-- Settles O52: each step of a safe state answers a safe one, one command further on. -/
theorem safeStreamsNeverFault : Obligations.SafeStreamsNeverFault := by
  intro s hs k
  induction k generalizing s with
  | zero => exact ⟨s, rfl, hs, rfl⟩
  | succ k ih =>
    obtain ⟨t, hstep, ht, htp⟩ := step_of_safeState hs
    obtain ⟨u, hrun, hu, hup⟩ := ih t ht
    refine ⟨u, (run_succ_of_next hstep k).trans hrun, hu, ?_⟩
    rw [hup, htp, List.drop_tail]

/-- Settles O53: by induction on the safe commands, whose steps complete. -/
theorem firstUnsafeCommandEndsTheRun : Obligations.FirstUnsafeCommandEndsTheRun := by
  intro s before after p hf hp hsafe hunsafe k
  induction before generalizing s with
  | nil =>
    rw [List.length_nil, Nat.zero_add, Nat.add_comm]
    exact run_succ_of_fault (step_unsafe hf hp hunsafe) k
  | cons q before ih =>
    obtain ⟨hq, hbefore⟩ := List.forall_mem_cons.mp hsafe
    obtain ⟨t, hstep⟩ := step_safe hf hp hq
    obtain ⟨htf, htp⟩ := step_next_frame hstep
    rw [List.length_cons, show before.length + 1 + 1 + k = (before.length + 1 + k) + 1 by omega, run_succ_of_next hstep]
    exact ih t htf (by rw [htp, hp]; rfl) hbefore

/-- Settles O54: each command's word decodes to it, so the step that samples it is the command. -/
theorem presentedProgramRunsAsItsCommands : Obligations.PresentedProgramRunsAsItsCommands := by
  intro prog later s hf hwf hp
  induction prog generalizing s with
  | nil => rfl
  | cons c cs ih =>
    obtain ⟨hc, hcs⟩ := List.forall_mem_cons.mp hwf
    have hstep : step s = exec c.1 { s with ports := { c.2 with cmd := encode c.1 }, pending := s.pending.tail } := by
      rw [hp]
      exact step_decoded hf hp (Encoding.decode_encode hc)
    rw [execProgram, ← hstep]
    cases hs : step s with
    | next t =>
      obtain ⟨htf, htp⟩ := step_next_frame hs
      exact (run_succ_of_next hs _).trans (ih t htf hcs (by rw [htp, hp]; rfl))
    | fault f => exact run_succ_of_fault hs _
    | refused r => exact absurd hs (CommandEffects.step_ne_refused s r)

/-! ## The faulted state -/

theorem advance_faulted {s : State} {f : Fault} (h : s.faultRecord = some f) : advance s = s := by
  simp [advance, h]

/-- Settles O6: a step of the faulted state answers its fault, and advancing leaves it. -/
theorem faultedStateIsFinal : Obligations.FaultedStateIsFinal := by
  intro s f hf
  refine ⟨step_faulted hf, fun k => ?_⟩
  induction k with
  | zero => rfl
  | succ k ih => rw [advanceBy, advance_faulted hf, ih]

/-- Settles O7: the run records the fault in the state the step started from. -/
theorem faultIsRecordedAndChangesNothingElse : Obligations.FaultIsRecordedAndChangesNothingElse := by
  intro s f hf hstep
  simp [advance, hf, hstep, State.latchFault]

/-! ## Reset -/

/-- Settles O1: the fields of a zero byte are zero, and every other clause is a field of the reset state. -/
theorem resetStateIsAsGiven : Obligations.ResetStateIsAsGiven :=
  ⟨rfl, rfl, ConfigFields.getField_zero, ConfigFields.rsvField_zero, rfl, rfl, rfl, rfl, rfl⟩

/-- Settles O2: each clause is a field of the state that reset leaves. -/
theorem resetClearsCfgInAnyState : Obligations.ResetClearsCfgInAnyState :=
  fun _ => ⟨rfl, rfl, rfl, rfl, rfl⟩

end Sys2Proof.Runs
end

section
/-! SUPPORT. Binary32 patterns and the values they denote (40_temperature_codec.md R63, R66): the fields of a pattern, that b32 and the
decimal literals of half steps are exact, and R66's four cases. -/

namespace Sys2Proof.Patterns

open Sys2Proof Sys2Proof.Machine

/-! ## The fields of a pattern -/

theorem expField_eq_iff (b : Pattern32) (e : BitVec 8) : expField b = e.toNat ↔ b.extractLsb' 23 8 = e :=
  BitVec.toNat_inj

theorem fracField_eq_iff (b : Pattern32) (m : BitVec 23) : fracField b = m.toNat ↔ b.extractLsb' 0 23 = m :=
  BitVec.toNat_inj

theorem signBit_eq_msb (b : Pattern32) : signBit b = b.msb := (BitVec.msb_eq_getLsbD_last b).symm

theorem signBit_append (s : BitVec 1) (x : BitVec 31) : signBit (s ++ x) = s.msb :=
  (signBit_eq_msb _).trans (BitVec.msb_append.trans (if_neg (by decide)))

theorem expField_append (s : BitVec 1) (x : BitVec 31) : expField (s ++ x) = x.toNat / 2 ^ 23 := by
  have hx := x.isLt
  have hlow : (s ++ x).extractLsb' 23 8 = x.extractLsb' 23 8 := BitVec.extractLsb'_append_eq_of_add_le (by decide)
  rw [expField, slice_eq, hlow, BitVec.extractLsb'_toNat, Nat.shiftRight_eq_div_pow]
  omega

theorem fracField_append (s : BitVec 1) (x : BitVec 31) : fracField (s ++ x) = x.toNat % 2 ^ 23 := by
  have hlow : (s ++ x).extractLsb' 0 23 = x.extractLsb' 0 23 := BitVec.extractLsb'_append_eq_of_add_le (by decide)
  rw [fracField, slice_eq, hlow, BitVec.extractLsb'_toNat, Nat.shiftRight_zero]

theorem classify_eq_finite_iff (b : Pattern32) : classify b = .finite ↔ expField b ≠ 255 := by
  unfold classify
  split_ifs <;> simp_all

/-! ## A pattern counted up through the magnitudes -/

/-- The pattern of a sign whose low 31 bits are e * 2^23 + m with m the 24-bit significand denotes m * 2^e units. -/
theorem magUnits_append {s : BitVec 1} {x : BitVec 31} {e m : ℕ} (hx : x.toNat = e * 2 ^ 23 + m) (hl : 2 ^ 23 ≤ m)
    (hu : m < 2 ^ 24) : magUnits (s ++ x) = m * 2 ^ e := by
  have hexp : expField (s ++ x) = e + 1 := by
    rw [expField_append]
    omega
  have hfrac : 2 ^ 23 + fracField (s ++ x) = m := by
    rw [fracField_append]
    omega
  rw [magUnits, hexp, if_neg e.succ_ne_zero, hfrac, Nat.add_sub_cancel]

theorem log2_mul_two_pow {n : ℕ} (hn : n ≠ 0) (k : ℕ) : Nat.log2 (n * 2 ^ k) = Nat.log2 n + k := by
  have hmin := Nat.mul_le_mul_right (2 ^ k) (Nat.log2_self_le hn)
  have hmax := Nat.mul_lt_mul_of_pos_right (Nat.lt_log2_self (n := n)) (Nat.two_pow_pos k)
  rw [← pow_add] at hmin hmax
  exact (Nat.log2_eq_iff (by positivity)).mpr ⟨hmin, by rwa [Nat.add_right_comm]⟩

/-- Scaling a number of at most 24 bits to a 24-bit significand. -/
theorem significand_bounds {n : ℕ} (hn : n ≠ 0) (hlt : n < 2 ^ 24) :
    Nat.log2 n ≤ 23 ∧ 2 ^ 23 ≤ n * 2 ^ (23 - Nat.log2 n) ∧ n * 2 ^ (23 - Nat.log2 n) < 2 ^ 24 := by
  have hlog : Nat.log2 n < 24 := (Nat.log2_lt hn).mpr hlt
  exact ⟨by omega, (Nat.log2_eq_iff (by positivity)).mp (by rw [log2_mul_two_pow hn]; omega)⟩

/-- Scaled to its significand and back, a number of at most 24 bits is itself, in any unit. -/
theorem significand_scale {n : ℕ} (hlog : Nat.log2 n ≤ 23) (c : ℕ) :
    n * 2 ^ (23 - Nat.log2 n) * 2 ^ (c + Nat.log2 n) = n * 2 ^ (c + 23) := by
  rw [mul_assoc, ← pow_add]
  congr 2
  omega

/-! ## b32 -/

/-- The sign bit b32 writes. -/
def signOf (negative : Bool) : BitVec 1 := if negative then 1#1 else 0#1

@[simp] theorem signOf_msb (negative : Bool) : (signOf negative).msb = negative := by cases negative <;> rfl

/-- b32's pattern of a value other than zero, as one number below its sign bit: the exponent and the 24-bit significand, whose leading
1 the exponent's lowest bit takes in. -/
theorem b32_eq_append {q : ℤ} {f : ℕ} (hq : q ≠ 0) (hlt : q.natAbs < 2 ^ 24) (hf : f ≤ 126) :
    ∃ x : BitVec 31, b32 q f = signOf (decide (q < 0)) ++ x ∧
      x.toNat = (126 + Nat.log2 q.natAbs - f) * 2 ^ 23 + q.natAbs * 2 ^ (23 - Nat.log2 q.natAbs) := by
  obtain ⟨hlog, hmin, hmax⟩ := significand_bounds (Int.natAbs_ne_zero.mpr hq) hlt
  refine ⟨BitVec.ofNat 8 (127 + Nat.log2 q.natAbs - f) ++
    BitVec.ofNat 23 ((q.natAbs <<< (23 - Nat.log2 q.natAbs)) &&& 0x7FFFFF), ?_, ?_⟩
  · have hsign : signOf (decide (q < 0)) = if q < 0 then 1#1 else 0#1 := by simp [signOf]
    rw [b32, if_neg hq, hsign]
    exact BitVec.append_assoc
  · rw [BitVec.toNat_append, BitVec.toNat_ofNat, BitVec.toNat_ofNat, ← Nat.shiftLeft_add_eq_or_of_lt (Nat.mod_lt _ (by decide)),
      Nat.shiftLeft_eq, Nat.shiftLeft_eq, Nat.and_two_pow_sub_one_eq_mod _ 23]
    omega

/-- b32 writes the value q * 2^-f exactly, for every q of at most 24 bits (R63). -/
theorem realUnits_b32 {q : ℤ} {f : ℕ} (hlt : q.natAbs < 2 ^ 24) (hf : f ≤ 126) : realUnits (b32 q f) = q * 2 ^ (149 - f) := by
  by_cases hq : q = 0
  · subst hq
    rw [b32, if_pos rfl, zero_mul]
    decide
  · obtain ⟨hlog, hmin, hmax⟩ := significand_bounds (Int.natAbs_ne_zero.mpr hq) hlt
    obtain ⟨x, hb, hx⟩ := b32_eq_append hq hlt hf
    have hscale : q.natAbs * 2 ^ (23 - Nat.log2 q.natAbs) * 2 ^ (126 + Nat.log2 q.natAbs - f) = q.natAbs * 2 ^ (149 - f) := by
      rw [Nat.sub_add_comm hf, significand_scale hlog, ← Nat.sub_add_comm hf]
    have hsign : (if decide (q < 0) = true then -1 else 1) * (q.natAbs : ℤ) = q := by
      simp only [decide_eq_true_eq]
      split <;> omega
    rw [signBit_realUnits, hb, magUnits_append hx hmin hmax, signBit_append, signOf_msb, hscale, Nat.cast_mul, ← mul_assoc,
      hsign, Nat.cast_pow, Nat.cast_ofNat]

theorem real_b32 {q : ℤ} {f : ℕ} (hlt : q.natAbs < 2 ^ 24) (hf : f ≤ 126) : real (b32 q f) = (q : ℚ) / 2 ^ f := by
  have hunits : (unitsPerDegree : ℚ) = 2 ^ f * 2 ^ (149 - f) := by
    rw [unitsPerDegree, ← pow_add, Nat.add_sub_cancel' (by omega)]
    norm_num
  rw [real, realUnits_b32 hlt hf, hunits]
  push_cast
  exact mul_div_mul_right _ _ (by positivity)

theorem classify_b32 {q : ℤ} {f : ℕ} (hlt : q.natAbs < 2 ^ 24) (hf : f ≤ 126) : classify (b32 q f) = .finite := by
  by_cases hq : q = 0
  · subst hq
    rw [b32, if_pos rfl]
    decide
  · obtain ⟨hlog, -, hmax⟩ := significand_bounds (Int.natAbs_ne_zero.mpr hq) hlt
    obtain ⟨x, hb, hx⟩ := b32_eq_append hq hlt hf
    rw [hb, classify_eq_finite_iff, expField_append]
    omega

/-- b32 never writes -0.0 (decision D13). -/
theorem b32_ne_negZero {q : ℤ} {f : ℕ} (hlt : q.natAbs < 2 ^ 24) (hf : f ≤ 126) : b32 q f ≠ 0x80000000#32 := by
  intro hb
  have hunits := realUnits_b32 hlt hf
  rw [hb, show realUnits 0x80000000#32 = 0 by decide] at hunits
  have hq : q = 0 := (mul_eq_zero.mp hunits.symm).resolve_right (by positivity)
  rw [hq, b32, if_pos rfl] at hb
  exact absurd hb (by decide)

/-! ## Decimal literals of half steps -/

theorem roundHalfEven_mul (k : ℕ) {d : ℕ} (hd : 0 < d) : roundHalfEven (k * d) d = k := by
  simp [roundHalfEven, Nat.mul_div_cancel k hd, hd]

/-- A literal n/2 of at most 24 bits converts without rounding (R59). -/
theorem nearest32_half {n : ℕ} (hn : n ≠ 0) (hlt : n < 2 ^ 24) (negative : Bool) :
    ∃ x : BitVec 31, nearest32 negative (5 * n) 10 = signOf negative ++ x ∧
      x.toNat = (125 + Nat.log2 n) * 2 ^ 23 + n * 2 ^ (23 - Nat.log2 n) := by
  obtain ⟨hlog, hmin, hmax⟩ := significand_bounds hn hlt
  have hunits : 5 * n * unitsPerDegree / 10 = n * 2 ^ 148 := by
    unfold unitsPerDegree
    omega
  have hexp : (if n * 2 ^ 148 < 2 ^ 24 then 0 else Nat.log2 (n * 2 ^ 148) - 23) = 125 + Nat.log2 n := by
    rw [log2_mul_two_pow hn, if_neg (by omega)]
    omega
  have hround : roundHalfEven (5 * n * unitsPerDegree) (10 * 2 ^ (125 + Nat.log2 n)) = n * 2 ^ (23 - Nat.log2 n) := by
    have hnum : 5 * n * unitsPerDegree = n * 2 ^ (23 - Nat.log2 n) * (10 * 2 ^ (125 + Nat.log2 n)) := by
      rw [Nat.mul_left_comm, significand_scale hlog]
      unfold unitsPerDegree
      omega
    rw [hnum]
    exact roundHalfEven_mul _ (by positivity)
  refine ⟨_, by rw [nearest32, hunits, hexp, hround]; rfl, ?_⟩
  rw [min_eq_left (by omega), BitVec.toNat_ofNat]
  exact Nat.mod_eq_of_lt (by omega)

theorem realUnits_nearest32_half {n : ℕ} (hlt : n < 2 ^ 24) (negative : Bool) :
    realUnits (nearest32 negative (5 * n) 10) = (if negative then -1 else 1) * (n * 2 ^ 148) := by
  by_cases hn : n = 0
  · subst hn
    revert negative
    decide
  · obtain ⟨hlog, hmin, hmax⟩ := significand_bounds hn hlt
    obtain ⟨x, hb, hx⟩ := nearest32_half hn hlt negative
    rw [signBit_realUnits, hb, magUnits_append hx hmin hmax, signBit_append, signOf_msb, significand_scale hlog]
    push_cast
    rfl

theorem real_nearest32_half {n : ℕ} (hlt : n < 2 ^ 24) (negative : Bool) :
    real (nearest32 negative (5 * n) 10) = (if negative then -1 else 1) * ((n : ℚ) / 2) := by
  have hunits : (unitsPerDegree : ℚ) = 2 * 2 ^ 148 := by
    norm_num
  rw [real, realUnits_nearest32_half hlt, hunits]
  cases negative <;> push_cast <;> ring

/-- Settles O56: 255 and 256 are numbers of at most 24 bits. -/
theorem halfStepLiteralsConvertExactly : Obligations.HalfStepLiteralsConvertExactly :=
  ⟨fun n hn => by simpa using real_nearest32_half (n := n) (by omega) false,
    fun n hn => by simpa using real_nearest32_half (n := n) (by omega) true⟩

/-! ## What a pattern denotes -/

/-- A value with its magnitude as one rational. -/
theorem real_eq_sign_mul (b : Pattern32) : real b = (if b[31] then -1 else 1) * ((magUnits b : ℚ) / unitsPerDegree) := by
  rw [real, signBit_realUnits, mul_div_assoc']
  push_cast
  rfl

/-- Settles O18: a pattern's magnitude is its significand times the power of two its exponent names. -/
theorem patternDenotesItsValue : Obligations.PatternDenotesItsValue := by
  intro b
  have hunits : ((unitsPerDegree : ℕ) : ℚ) = (2 : ℚ) ^ (149 : ℤ) := by norm_num
  refine ⟨fun h0 => ?_, fun h0 h255 => ?_, fun h255 hm => ?_, fun h255 hm => ?_⟩
  · have he : expField b = 0 := (expField_eq_iff b 0#8).mpr h0
    refine ⟨(classify_eq_finite_iff b).mpr (by omega), ?_⟩
    rw [real_eq_sign_mul, magUnits, if_pos he, hunits, zpow_neg, mul_assoc, div_eq_mul_inv]
    rfl
  · have he : expField b ≠ 0 := mt (expField_eq_iff b 0#8).mp h0
    refine ⟨(classify_eq_finite_iff b).mpr (mt (expField_eq_iff b 255#8).mp h255), ?_⟩
    obtain ⟨k, hk⟩ := Nat.exists_eq_succ_of_ne_zero he
    have hexp : (expField b : ℤ) - 150 = k - 149 := by omega
    change _ = _ * (_ + (fracField b : ℚ)) * 2 ^ ((expField b : ℤ) - 150)
    rw [real_eq_sign_mul, magUnits, if_neg he, hunits, hexp, zpow_sub₀ two_ne_zero, zpow_natCast, hk, Nat.succ_sub_one]
    push_cast
    ring
  · have he : expField b = 255 := (expField_eq_iff b 255#8).mpr h255
    simp [classify, he, show fracField b = 0 from (fracField_eq_iff b 0#23).mpr hm]
  · have he : expField b = 255 := (expField_eq_iff b 255#8).mpr h255
    simp [classify, he, show fracField b ≠ 0 from mt (fracField_eq_iff b 0#23).mp hm]

end Sys2Proof.Patterns
end

section
/-! SUPPORT. The temperature codec (40_temperature_codec.md): a word as its field and its padding, the forms of the decode (R61, R62,
R75), the encode over the rationals (R67 to R69), and ENCT and DECT one after the other (R71 to R76, R80). -/

namespace Sys2Proof.TemperatureCodec

open Sys2Proof Sys2Proof.Machine Sys2Proof.CodecCommands

/-! ## A word's field and padding -/

/-- A word is its field with its padding below. -/
theorem extract_append_extract {n k : ℕ} (w : BitVec (n + k)) : w.extractLsb' k n ++ w.extractLsb' 0 k = w := by
  rw [BitVec.extractLsb'_append_extractLsb'_eq_extractLsb' (Nat.zero_add k).symm]
  exact BitVec.extractLsb'_eq_self

theorem toInt_eq_field {n k : ℕ} (hn : n ≠ 0) (w : BitVec (n + k)) :
    w.toInt = 2 ^ k * (w.extractLsb' k n).toInt + (w.extractLsb' 0 k).toNat := by
  conv_lhs => rw [← extract_append_extract w]
  rw [BitVec.toInt_append, if_neg (by simpa using hn)]

/-- Dropping the padding is the arithmetic right shift (R75). -/
theorem toInt_extract_eq_ediv {n k : ℕ} (hn : n ≠ 0) (w : BitVec (n + k)) : (w.extractLsb' k n).toInt = w.toInt / 2 ^ k := by
  have hpad : ((w.extractLsb' 0 k).toNat : ℤ) < 2 ^ k := by exact_mod_cast (w.extractLsb' 0 k).isLt
  rw [toInt_eq_field hn w, Int.add_ediv_of_dvd_left (Int.dvd_mul_right _ _), Int.ediv_eq_zero_of_lt (Int.natCast_nonneg _) hpad,
    add_zero, Int.mul_ediv_cancel_left _ (by positivity)]

theorem floor_toInt_div {n k : ℕ} (hn : n ≠ 0) (w : BitVec (n + k)) : ⌊(w.toInt : ℚ) / 2 ^ k⌋ = (w.extractLsb' k n).toInt := by
  rw [toInt_extract_eq_ediv hn]
  exact_mod_cast Rat.floor_intCast_div_natCast w.toInt (2 ^ k)

/-- Clearing the padding leaves the field. -/
theorem and_clearPadding {n k : ℕ} (w : BitVec (n + k)) : w &&& (BitVec.allOnes n ++ 0#k) = w.extractLsb' k n ++ 0#k := by
  conv_lhs => rw [← extract_append_extract w]
  rw [BitVec.and_append, BitVec.and_allOnes, BitVec.and_zero]

theorem and_clearMainPadding (w : DeviceWord) : w &&& 0xFFE0#16 = w.extractLsb' 5 11 ++ 0#5 := and_clearPadding (n := 11) (k := 5) w

theorem and_clearThrPadding (w : DeviceWord) : w &&& 0xFF80#16 = w.extractLsb' 7 9 ++ 0#7 := and_clearPadding (n := 9) (k := 7) w

theorem append_zero_padding (f : BitVec 9) : (f ++ 0#7) &&& 0x007F#16 = 0x0000#16 := by
  rw [show 0x007F#16 = 0#9 ++ BitVec.allOnes 7 from rfl, BitVec.and_append, BitVec.and_zero, BitVec.zero_and]
  rfl

/-! ## The decodes -/

theorem decValue_main (w : DeviceWord) : decValue 11 3 w = ((w.extractLsb' 5 11).toInt : ℚ) / 8 := by
  rw [decValue, decSteps_main]
  norm_num

/-- R61's scaling and R75's: the field over 2^F is the word with its padding cleared over 2^8. -/
theorem decValue_main_cleared (w : DeviceWord) : decValue 11 3 w = ((w &&& 0xFFE0#16).toInt : ℚ) / 256 := by
  rw [decValue_main, and_clearMainPadding, BitVec.toInt_append_zero]
  push_cast
  ring

theorem decValue_thr_cleared (w : DeviceWord) : decValue 9 1 w = ((w &&& 0xFF80#16).toInt : ℚ) / 256 := by
  rw [decValue_thr, decSteps_thr, and_clearThrPadding, BitVec.toInt_append_zero]
  push_cast
  ring

/-- Settles O17: the field is the shifted word, and where WIN[6:0] is 0 neither layout has padding to clear. -/
theorem decodeIsAnArithmeticShift : Obligations.DecodeIsAnArithmeticShift := by
  intro w
  refine ⟨?_, decValue_main_cleared w, ?_, decValue_thr_cleared w, fun hpad => ?_⟩
  · rw [decValue_main, ← floor_toInt_div (n := 11) (k := 5) (by decide) w]
  · rw [decValue_thr, decSteps_thr, ← floor_toInt_div (n := 9) (k := 7) (by decide) w]
  · have hthr : w &&& 0xFF80#16 = w := by
      calc w &&& 0xFF80#16 = (w &&& 0xFF80#16) ||| (w &&& 0x007F#16) := by rw [hpad, BitVec.or_zero]
        _ = w &&& (0xFF80#16 ||| 0x007F#16) := (BitVec.and_or_distrib_left).symm
        _ = w := BitVec.and_allOnes
    have hmain : w &&& 0xFFE0#16 = w := by
      rw [← hthr, BitVec.and_assoc]
      rfl
    rw [decValue_main_cleared, decValue_thr_cleared, hthr, hmain]

theorem sigField_toNat {f : ℕ} (hf : f ≤ 8) (w : DeviceWord) : (sigField (8 + f) w).toNat = w.toNat / 2 ^ (8 - f) := by
  have hpow : 2 ^ (8 - f) * 2 ^ (8 + f) = 2 ^ 16 := by
    rw [← pow_add]
    congr 1
    omega
  have hlt : w.toNat / 2 ^ (8 - f) < 2 ^ (8 + f) := Nat.div_lt_of_lt_mul (hpow ▸ w.isLt)
  rw [sigField, slice_eq, BitVec.extractLsb'_toNat, Nat.shiftRight_eq_div_pow, show 16 - (8 + f) = 8 - f by omega,
    Nat.mod_eq_of_lt hlt]

theorem sigField_msb {f : ℕ} (hf : f ≤ 8) (w : DeviceWord) : (sigField (8 + f) w).msb = w[15] := by
  rw [sigField, slice_eq, BitVec.msb_extractLsb', show 16 - (8 + f) + (8 + f) = 16 by omega]
  simp [BitVec.getMsbD]

/-- The integer part's byte with the fraction's bits of the low byte below it is the number without its padding. -/
theorem byte_split {f : ℕ} (hf : f ≤ 8) (n : ℕ) : n / 2 ^ 8 * 2 ^ f + n % 2 ^ 8 / 2 ^ (8 - f) = n / 2 ^ (8 - f) := by
  have hpow : 2 ^ (8 - f) * 2 ^ f = 2 ^ 8 := by rw [← pow_add, Nat.sub_add_cancel hf]
  have hhigh : 2 ^ (8 - f) * (n / 2 ^ 8 * 2 ^ f) = 2 ^ 8 * (n / 2 ^ 8) := by rw [Nat.mul_left_comm, hpow, Nat.mul_comm]
  rw [← Nat.mul_add_div (Nat.two_pow_pos _), hhigh, Nat.div_add_mod]

/-- R62's procedure on a field of 8 + f bits, read off a word with 8 - f bits of padding, is the field's two's-complement value. -/
theorem decStepsSignMag_eq {f : ℕ} (hf : f ≤ 8) (w : DeviceWord) : decStepsSignMag (8 + f) f w = decSteps (8 + f) w := by
  have hmsb := sigField_msb hf w
  rw [decSteps, sval_eq_toInt, decStepsSignMag]
  split
  case isTrue hpos =>
    have hlt : w.toNat < 2 ^ 15 := BitVec.toNat_lt_of_msb_false (x := w) (by simpa [BitVec.msb_eq_getLsbD_last] using hpos)
    have hip : (slice w 8 8 &&& 0x7F#8).toNat = w.toNat / 2 ^ 8 := by
      rw [slice_eq, BitVec.toNat_and, BitVec.extractLsb'_toNat, Nat.shiftRight_eq_div_pow]
      exact (Nat.and_two_pow_sub_one_eq_mod _ 7).trans (by omega)
    have hfp : (slice w 0 8 >>> (8 - f)).toNat = w.toNat % 2 ^ 8 / 2 ^ (8 - f) := by
      rw [slice_eq, BitVec.toNat_ushiftRight, BitVec.extractLsb'_toNat, Nat.shiftRight_zero, Nat.shiftRight_eq_div_pow]
    rw [BitVec.toInt_eq_toNat_of_msb (hmsb.trans hpos), sigField_toNat hf, ← byte_split hf, hip, hfp]
  case isFalse hneg =>
    rw [BitVec.toInt_eq_neg_toNat_neg_of_msb_true (hmsb.trans (by simpa using hneg)), negField_eq_neg]
    simp only [Nat.and_two_pow_sub_one_eq_mod, Nat.shiftRight_eq_div_pow, Nat.div_add_mod']

/-- Settles O16: both layouts have 8 + F significant bits. -/
theorem signMagnitudeProcedureAgrees : Obligations.SignMagnitudeProcedureAgrees :=
  fun w => ⟨(decStepsSignMag_eq (f := 3) (by decide) w).trans (decSteps_main w),
    (decStepsSignMag_eq (f := 1) (by decide) w).trans (decSteps_thr w)⟩

/-- Each decode's field is well within the 24 bits binary32 holds. -/
theorem natAbs_toInt_lt {n : ℕ} (hn : n ≤ 24) (x : BitVec n) : x.toInt.natAbs < 2 ^ 24 := by
  have hl := BitVec.le_toInt x
  have hu := BitVec.toInt_lt (x := x)
  have hpow : (2 : ℤ) ^ (n - 1) ≤ 2 ^ 23 := pow_le_pow_right₀ one_le_two (by omega)
  omega

/-- Settles O14: b32 is exact on fields this short and never writes -0.0. -/
theorem decodedTemperatureIsExact : Obligations.DecodedTemperatureIsExact := by
  intro s
  have hmain := natAbs_toInt_lt (n := 11) (by decide) (s.ports.win.extractLsb' 5 11)
  have hthr := natAbs_toInt_lt (n := 9) (by decide) (s.ports.win.extractLsb' 7 9)
  refine ⟨⟨_, decmDecodesTheMainWord.2.2.1 s, Patterns.classify_b32 hmain (by decide),
      Patterns.b32_ne_negZero hmain (by decide), ?_⟩,
    ⟨_, dectDecodesTheThresholdWord.2.2.1 s, Patterns.classify_b32 hthr (by decide),
      Patterns.b32_ne_negZero hthr (by decide), ?_⟩⟩
  · rw [Patterns.real_b32 hmain (by decide)]
    norm_num
  · rw [Patterns.real_b32 hthr (by decide), pow_one]

/-- Settles O15: the field of k's word is k, and DECM drives the field's value exactly. -/
theorem everyMainValueIsDecoded : Obligations.EveryMainValueIsDecoded := by
  intro k pad hl hu s hw
  obtain ⟨⟨b, hexec, -, -, hreal⟩, -⟩ := decodedTemperatureIsExact s
  have hfield : (s.ports.win.extractLsb' 5 11).toInt = k := by
    rw [hw, BitVec.extractLsb'_append_eq_left]
    exact BitVec.toInt_ofInt_eq_self (by decide) (by omega) (by omega)
  exact ⟨b, hexec, by rw [hreal, hfield]⟩

/-! ## ENCT over the rationals -/

theorem real_eq_intCast_iff (b : Pattern32) (n : ℤ) : real b = (n : ℚ) ↔ realUnits b = n * (unitsPerDegree : ℤ) := by
  rw [real, div_eq_iff unitsPerDegree_pos.ne', ← Int.cast_natCast, ← Int.cast_mul, Int.cast_inj]

theorem real_neg_iff (b : Pattern32) : real b < 0 ↔ realUnits b < 0 := by
  simpa using real_lt_iff b 0

/-- R68's truncation, over the value the pattern denotes. -/
theorem truncPart_realUnits (b : Pattern32) : truncPart (realUnits b) = if real b < 0 then ⌈real b⌉ else ⌊real b⌋ := by
  simp only [real_neg_iff]
  split
  case isTrue hneg =>
    have hfloor : ⌊-real b⌋ = -realUnits b / (unitsPerDegree : ℤ) := by
      rw [real, ← neg_div, ← Int.cast_neg]
      exact_mod_cast Rat.floor_intCast_div_natCast (-realUnits b) unitsPerDegree
    rw [← neg_neg (real b), Int.ceil_neg, hfloor, truncPart, ← Int.tdiv_eq_ediv_of_nonneg (by omega), Int.neg_tdiv, neg_neg]
  case isFalse hpos => rw [floor_real, truncPart, Int.tdiv_eq_ediv_of_nonneg (by omega)]

/-- R68's fraction bit, over the value the pattern denotes. -/
theorem fracBit_realUnits (b : Pattern32) :
    (fracBit (realUnits b)).toNat = if real b = (truncPart (realUnits b) : ℚ) then 0 else 1 := by
  have hrem : realUnits b - truncPart (realUnits b) * (unitsPerDegree : ℤ) = 0 ↔ real b = (truncPart (realUnits b) : ℚ) :=
    sub_eq_zero.trans (real_eq_intCast_iff b _).symm
  simp only [fracBit, ne_eq, hrem, ite_not]
  exact apply_ite BitVec.toNat _ _ _

/-- R69's magnitude as the integer part and the fraction bit. -/
theorem keptHalfSteps_natAbs (v : ℤ) : keptHalfSteps v.natAbs = 2 * (truncPart v).natAbs + (fracBit v).toNat := by
  rw [keptHalfSteps, fracBit_toNat, truncPart, Int.natAbs_tdiv]
  rfl

theorem encWord_eq_append (v : ℤ) : encWord v = encField v ++ 0#7 := by
  have hlow : ((encField v).setWidth 16).extractLsb' 0 9 = encField v := by
    rw [← BitVec.setWidth_eq_extractLsb' (by decide), BitVec.setWidth_setWidth_of_le _ (by decide), BitVec.setWidth_eq]
  rw [encWord, BitVec.shiftLeft_eq_concat_of_lt (by decide), hlow]
  rfl

theorem encWord_toNat (v : ℤ) : (encWord v).toNat = 128 * (encField v).toNat := by
  rw [encWord_eq_append, BitVec.toNat_append, BitVec.toNat_ofNat, Nat.zero_mod, Nat.or_zero, Nat.shiftLeft_eq, Nat.mul_comm]

/-- R69's field of a value of the domain, in the integers. -/
theorem encField_toNat {v : ℤ} (h : v.natAbs ≤ 128 * unitsPerDegree) :
    (encField v).toNat = if v < 0 then (512 - keptHalfSteps v.natAbs) % 512 else keptHalfSteps v.natAbs := by
  rw [encField, negField_eq_neg]
  split
  · rw [BitVec.toNat_neg, encMagnitude_toNat h]
  · exact encMagnitude_toNat h

/-- The units of a value of the domain. -/
theorem realUnits_bounds {b : Pattern32} (h : inDomain b = true) :
    -(128 * (unitsPerDegree : ℤ)) ≤ realUnits b ∧ realUnits b < 128 * (unitsPerDegree : ℤ) := by
  simp only [inDomain, decide_eq_true_eq] at h
  exact h.2

theorem inDomain_eq_false_iff (b : Pattern32) : inDomain b = false ↔ classify b ≠ .finite ∨ real b < -128 ∨ 128 ≤ real b := by
  rw [← Bool.not_eq_true, inDomain_iff]
  simp only [not_and_or, not_le, not_lt]

/-- Settles O19: R68's t and m are the truncation and the kept half steps; the corner patterns are evaluated one by one. -/
theorem enctEncodesOrFaults : Obligations.EnctEncodesOrFaults := by
  refine ⟨rfl, rfl, fun s hfin hl hu => ?_, fun s h => exec_enct_outside ((inDomain_eq_false_iff _).mpr h), fun s b w hc hb => ?_⟩
  · have hd : inDomain s.ports.tin = true := (inDomain_iff _).mpr ⟨hfin, hl, hu⟩
    have habs : (realUnits s.ports.tin).natAbs ≤ 128 * unitsPerDegree := by
      obtain ⟨hlo, hhi⟩ := realUnits_bounds hd
      omega
    refine ⟨_, _, truncPart_realUnits _, rfl, ?_⟩
    rw [exec_enct_inDomain hd, ← fracBit_realUnits, ← keptHalfSteps_natAbs]
    simp only [real_neg_iff]
    rw [← encField_toNat habs, ← encWord_toNat, BitVec.ofNat_toNat, BitVec.setWidth_eq]
    rfl
  · have hd : inDomain b = true ∧ encWord (realUnits b) = w := by
      simp only [List.mem_cons, Prod.mk.injEq, List.not_mem_nil, or_false] at hc
      obtain ⟨rfl, rfl⟩ | ⟨rfl, rfl⟩ | ⟨rfl, rfl⟩ | ⟨rfl, rfl⟩ | ⟨rfl, rfl⟩ | ⟨rfl, rfl⟩ | ⟨rfl, rfl⟩ | ⟨rfl, rfl⟩ | ⟨rfl, rfl⟩ |
        ⟨rfl, rfl⟩ | ⟨rfl, rfl⟩ | ⟨rfl, rfl⟩ := hc <;> decide
    rw [exec_enct_inDomain (hb ▸ hd.1), hb, hd.2]
    rfl

/-! ## The laws of the codec -/

theorem abs_real (b : Pattern32) : |real b| = ((realUnits b).natAbs : ℚ) / (unitsPerDegree : ℚ) := by
  rw [real, abs_div, abs_of_pos unitsPerDegree_pos, Nat.cast_natAbs, Int.cast_abs]

/-- R71's magnitude: the kept half steps in degrees. -/
theorem keptHalfSteps_real (b : Pattern32) :
    (keptHalfSteps (realUnits b).natAbs : ℚ) / 2 = (⌊|real b|⌋ : ℚ) + if (⌊|real b|⌋ : ℚ) = |real b| then 0 else 1 / 2 := by
  have hfloor : (⌊|real b|⌋ : ℚ) = ((realUnits b).natAbs / unitsPerDegree : ℕ) := by
    have hint : ⌊|real b|⌋ = ((realUnits b).natAbs / unitsPerDegree : ℕ) := by
      rw [abs_real]
      exact_mod_cast Rat.floor_intCast_div_natCast ((realUnits b).natAbs : ℤ) unitsPerDegree
    rw [hint, Int.cast_natCast]
  have hwhole : (⌊|real b|⌋ : ℚ) = |real b| ↔ (realUnits b).natAbs % unitsPerDegree = 0 := by
    rw [hfloor, abs_real, eq_div_iff unitsPerDegree_pos.ne']
    norm_cast
    exact (Nat.dvd_iff_div_mul_eq _ _).symm.trans Nat.dvd_iff_mod_eq_zero
  simp only [hwhole]
  rw [hfloor, keptHalfSteps]
  generalize (realUnits b).natAbs / unitsPerDegree = whole
  split <;> push_cast <;> ring

theorem enct_domain_steps {b : Pattern32} (h : inDomain b = true) :
    decValue 9 1 (encWord (realUnits b)) =
      (if real b < 0 then -1 else 1) * ((keptHalfSteps (realUnits b).natAbs : ℚ) / 2) := by
  obtain ⟨hl, hu⟩ := realUnits_bounds h
  rw [decValue_thr, decSteps_encWord hl hu]
  simp only [real_neg_iff]
  split <;> push_cast <;> ring

/-- Settles O20: the kept half steps are the truncated magnitude and the presence bit. -/
theorem encodedWordDecodesToTheTruncatedStep : Obligations.EncodedWordDecodesToTheTruncatedStep := by
  intro s hfin hl hu
  have hd : inDomain s.ports.tin = true := (inDomain_iff _).mpr ⟨hfin, hl, hu⟩
  exact ⟨_, exec_enct_inDomain hd, by rw [enct_domain_steps hd, keptHalfSteps_real]⟩

theorem expField_flipSign (b : Pattern32) : expField (b ^^^ 0x80000000#32) = expField b := by
  rw [expField, slice_eq, BitVec.extractLsb'_xor, show (0x80000000#32).extractLsb' 23 8 = 0#8 by decide, BitVec.xor_zero]
  rfl

theorem fracField_flipSign (b : Pattern32) : fracField (b ^^^ 0x80000000#32) = fracField b := by
  rw [fracField, slice_eq, BitVec.extractLsb'_xor, show (0x80000000#32).extractLsb' 0 23 = 0#23 by decide, BitVec.xor_zero]
  rfl

theorem realUnits_flipSign (b : Pattern32) : realUnits (b ^^^ 0x80000000#32) = -realUnits b := by
  have hsign : signBit (b ^^^ 0x80000000#32) = !signBit b := by simp [signBit]
  rw [signBit_realUnits, signBit_realUnits, magUnits, expField_flipSign, fracField_flipSign, ← magUnits, hsign]
  cases signBit b <;> simp

theorem classify_flipSign (b : Pattern32) : classify (b ^^^ 0x80000000#32) = classify b := by
  rw [classify, expField_flipSign, fracField_flipSign, ← classify]

/-- Settles O22: the two values keep the same half steps and differ in sign. -/
theorem encodeIsSignSymmetric : Obligations.EncodeIsSignSymmetric := by
  intro s u hfin hpos hu hflip
  have hunits : realUnits u.ports.tin = -realUnits s.ports.tin := hflip ▸ realUnits_flipSign _
  have hreal : real u.ports.tin = -real s.ports.tin := by rw [real, hunits, Int.cast_neg, neg_div, real]
  have hds : inDomain s.ports.tin = true := (inDomain_iff _).mpr ⟨hfin, by linarith, hu⟩
  have hdu : inDomain u.ports.tin = true :=
    (inDomain_iff _).mpr ⟨hflip ▸ (classify_flipSign _).trans hfin, by linarith, by linarith⟩
  refine ⟨_, _, exec_enct_inDomain hds, exec_enct_inDomain hdu, ?_⟩
  rw [enct_domain_steps hds, enct_domain_steps hdu, hreal, hunits, Int.natAbs_neg, if_pos (by linarith), if_neg (by linarith)]
  ring

/-! ## Half steps -/

/-- A half step of the threshold range. -/
theorem real_halfStep (f : BitVec 9) : real (b32 f.toInt 1) = (f.toInt : ℚ) / 2 := by
  rw [Patterns.real_b32 (natAbs_toInt_lt (by decide) f) (by decide), pow_one]

theorem inDomain_halfStep (f : BitVec 9) : inDomain (b32 f.toInt 1) = true := by
  have hl : (-256 : ℚ) ≤ f.toInt := by exact_mod_cast BitVec.le_toInt f
  have hu : (f.toInt : ℚ) < 256 := by exact_mod_cast BitVec.toInt_lt (x := f)
  rw [inDomain_iff, real_halfStep]
  exact ⟨Patterns.classify_b32 (natAbs_toInt_lt (by decide) f) (by decide), by linarith, by linarith⟩

/-- A half step is encoded as itself (R72): the word decodes less than 0.5 away from it. -/
theorem encField_halfStep (f : BitVec 9) : encField (realUnits (b32 f.toInt 1)) = f := by
  have hnear := decValue_encWord_near (inDomain_halfStep f)
  rw [decValue_thr, real_halfStep] at hnear
  have hsteps := half_steps_eq_of_near hnear
  rwa [decSteps_thr, extract_encWord, BitVec.toInt_inj] at hsteps

/-- ENCT of a half step drives the step's field with zero padding. -/
theorem exec_enct_halfStep {s : State} {f : BitVec 9} (h : s.ports.tin = b32 f.toInt 1) :
    exec .enct s = .next { s with result := .word (f ++ 0#7) } := by
  rw [exec_enct_inDomain (h ▸ inDomain_halfStep f), h, encWord_eq_append, encField_halfStep]
  rfl

/-- Settles O25: every word is a field over zero padding, and the field's own half step reaches it. -/
theorem encodedWordsAreTheThresholdWords : Obligations.EncodedWordsAreTheThresholdWords := by
  refine ⟨fun s t h => ?_, fun f => ⟨_, fun s hs => exec_enct_halfStep hs⟩⟩
  cases hd : inDomain s.ports.tin with
  | true =>
    cases (exec_enct_inDomain hd).symm.trans h
    exact ⟨_, by rw [encWord_eq_append]; rfl⟩
  | false => cases (exec_enct_outside hd).symm.trans h

/-- Settles O24: DECT drives the half step of WIN's field, which is encoded as that field. -/
theorem reencodingZeroesThePadding : Obligations.ReencodingZeroesThePadding :=
  fun s => ⟨_, dectDecodesTheThresholdWord.2.2.1 s, fun u hu => by rw [exec_enct_halfStep hu, and_clearThrPadding]⟩

/-- Settles O21: a half step of the range is that of the 9-bit field it is encoded as. -/
theorem halfStepsRoundTrip : Obligations.HalfStepsRoundTrip := by
  intro k hl hu s hs
  obtain ⟨f, rfl⟩ : ∃ f : BitVec 9, f.toInt = k :=
    ⟨BitVec.ofInt 9 k, BitVec.toInt_ofInt_eq_self (by decide) (by omega) (by omega)⟩
  have hfield : (f ++ 0#7).extractLsb' 7 9 = f := BitVec.extractLsb'_append_eq_left
  refine ⟨real_halfStep f, f ++ 0#7, exec_enct_halfStep hs, ?_, fun u hu => ?_⟩
  · rw [decValue_thr, decSteps_thr, hfield]
  · rw [dectDecodesTheThresholdWord.2.2.1 u, hu, hfield]

end Sys2Proof.TemperatureCodec
end

section
/-! SUPPORT. Sequences of configuration commands (41_config_fields.md section 6): setters of one field accumulate (R93), setters of
different fields do not meet and may be reordered (R94), and what CFGDEF followed by setters builds. -/

namespace Sys2Proof.ConfigSequences

open Sys2Proof Sys2Proof.Machine Sys2Proof.Safety Sys2Proof.ConfigFields

/-! ## One setter -/

/-- A 1-bit field's setter ORs IMM2[0] into the field's bit (R83 to R85). -/
theorem exec_setterOf_bit {f : Field} (h : f.width = 1) (imm2 : FieldValue) (s : State) :
    exec (setterOf f imm2) s =
      .next { s with cfg := s.cfg ||| ((imm2.extractLsb' 0 1).setWidth 8 <<< f.shift), result := .noResult } := by
  have hmask : ∀ v : FieldValue, v.setWidth 8 &&& 1#8 = (v.extractLsb' 0 1).setWidth 8 := by decide
  have hones : f.ones = 1#8 := by rw [Field.ones, h]; rfl
  rw [exec_setterOf, setCommand_eq, orField, hones, hmask]

/-- A setter leaves every bit outside its field alone. -/
theorem exec_setterOf_outside {f : Field} {imm2 : FieldValue} {s t : State} (h : exec (setterOf f imm2) s = .next t) :
    t.cfg &&& ~~~f.bits = s.cfg &&& ~~~f.bits := by
  rw [exec_setterOf, setCommand_eq] at h
  cases h
  exact orField_outside f _ s.cfg

/-- A setter of the value 0 leaves CFG alone. -/
theorem exec_setterOf_zero (f : Field) (s : State) : exec (setterOf f 0#2) s = .next { s with result := .noResult } := by
  rw [exec_setterOf, setCommand_eq, orField]
  simp

/-- A word of a 1-bit setter's OP with IMM2[1] = 1 or RSV not 0 is reserved (R54, R55). -/
theorem step_bitSetter_reserved {s : State} {p : Ports} {ps : List Ports} (hf : s.faultRecord = none) (hp : s.pending = p :: ps)
    (hop : p.cmd.extractLsb' 0 4 ∈ [0x5#4, 0x6#4, 0x7#4]) (hw : p.cmd[5] = true ∨ p.cmd.extractLsb' 6 2 ≠ 0#2) :
    step s = .fault (.reservedCommand p.cmd) :=
  (Encoding.reservedWordsFaultAndNoOthers s p ps hf hp).mpr (hw.elim (fun hbit => by simp [hop, hbit]) .inl)

/-- Settles O28: SETSD is its field's setter; its OP's other words are reserved. -/
theorem setsdOrsBitZero : Obligations.SetsdOrsBitZero := by
  refine ⟨by decide, fun imm2 s => ?_, exec_setterOf_zero .sd, fun _ _ _ => exec_setterOf_outside (f := .sd), fun s hs => ?_,
    fun s p ps hf hp hop => step_bitSetter_reserved hf hp (by simp [hop])⟩
  · have hbit := exec_setterOf_bit (f := .sd) rfl imm2 s
    rwa [show Field.sd.shift = 0 from rfl, BitVec.shiftLeft_zero] at hbit
  · rw [exec_setsd, setCommand_eq, hs]
    rfl

/-- Settles O29: SETAM is its field's setter; its OP's other words are reserved. -/
theorem setamOrsBitOne : Obligations.SetamOrsBitOne := by
  refine ⟨by decide, exec_setterOf_bit (f := .am) rfl, exec_setterOf_zero .am, fun _ _ _ => exec_setterOf_outside (f := .am),
    fun s hs => ?_, fun s p ps hf hp hop => step_bitSetter_reserved hf hp (by simp [hop])⟩
  rw [exec_setam, setCommand_eq, hs]
  rfl

/-- Settles O30: SETAP is its field's setter; its OP's other words are reserved. -/
theorem setapOrsBitTwo : Obligations.SetapOrsBitTwo := by
  refine ⟨by decide, exec_setterOf_bit (f := .ap) rfl, exec_setterOf_zero .ap, fun _ _ _ => exec_setterOf_outside (f := .ap),
    fun s hs => ?_, fun s p ps hf hp hop => step_bitSetter_reserved hf hp (by simp [hop])⟩
  rw [exec_setap, setCommand_eq, hs]
  rfl

/-- Settles O33: FQ's two bits fill FOUT. -/
theorem getfqReadsTheCode : Obligations.GetfqReadsTheCode := by
  refine ⟨rfl, rfl, fun s => ?_, rfl, rfl, rfl, rfl⟩
  rw [exec_getfq, getCommand_eq, getField_eq_extract]
  rfl

/-- Settles O34: CFGLD's state has BIN in CFG, where the getters read. -/
theorem cfgldLoadsTheWholeByte : Obligations.CfgldLoadsTheWholeByte := by
  refine ⟨rfl, rfl, exec_cfgld, fun s hs => ⟨_, exec_cfgld s, hs, ?_, ?_⟩⟩
  · rw [exec_getsd, getCommand_eq, State.drive_cfg, State.writeCfg_cfg, hs]
    rfl
  · rw [exec_getfq, getCommand_eq, State.drive_cfg, State.writeCfg_cfg, hs]
    rfl

/-! ## Setters of one field, and of another -/

/-- Two setters of one field leave the OR of both values, masked, with its old value (R93). -/
theorem execAll_setterOf_twice (f : Field) (a b : FieldValue) (s : State) :
    ∃ t : State, execAll [setterOf f a, setterOf f b] s = .next t ∧
      getField f t.cfg = getField f s.cfg ||| ((a ||| b) &&& mask f) := by
  refine ⟨_, (execAll_cons_of_next (exec_setterOf f a s)).trans (execAll_cons_of_next (exec_setterOf f b _)), ?_⟩
  simp only [State.drive_cfg, State.writeCfg_cfg, getField_orField, BitVec.and_or_distrib_right, BitVec.or_assoc]

/-- Settles O37: the fields' masks are the one of IMM2's two bits and IMM2's own. -/
theorem settersOfOneFieldAccumulate : Obligations.SettersOfOneFieldAccumulate := by
  intro a b s
  have hfq := execAll_setterOf_twice .fq a b s
  rw [show (a ||| b) &&& mask .fq = a ||| b from fits_fq _] at hfq
  exact ⟨hfq, execAll_setterOf_twice .sd a b s, execAll_setterOf_twice .am a b s, execAll_setterOf_twice .ap a b s⟩

/-- No two fields share a bit of CFG (R17). -/
theorem fields_disjoint {f g : Field} (h : g ≠ f) : f.shift + f.width ≤ g.shift ∨ g.shift + g.width ≤ f.shift := by
  revert h
  cases f <;> cases g <;> decide

/-- A setter leaves every other field alone (R94). -/
theorem getField_orField_of_ne {f g : Field} (h : g ≠ f) (val cfg : Byte) : getField g (orField f val cfg) = getField g cfg := by
  apply BitVec.eq_of_getLsbD_eq
  intro k hk
  rw [getLsbD_getField _ _ hk, getLsbD_getField _ _ hk]
  by_cases hkw : k < g.width
  · have hg := shift_add_width_le g
    have hdisj := fields_disjoint h
    rw [getLsbD_orField f val cfg (by omega)]
    by_cases hbelow : g.shift + k < f.shift
    · simp [hbelow]
    · have hout : ¬ g.shift + k - f.shift < f.width := by omega
      simp [hout]
  · simp [hkw]

/-- Settles O38: a setter's bits lie in its own field, apart from every other and from RSV. -/
theorem settersLeaveOtherFieldsAlone : Obligations.SettersLeaveOtherFieldsAlone := by
  intro i f g s hf hg
  obtain ⟨val, hval⟩ := exec_setter hf
  exact ⟨_, hval s, getField_orField_of_ne hg val s.cfg, rsvField_orField f val s.cfg⟩

/-! ## Setters in any order -/

theorem orField_comm (f g : Field) (a b cfg : Byte) : orField f a (orField g b cfg) = orField g b (orField f a cfg) := by
  simp only [orField]
  ac_rfl

/-- Two setters may be exchanged (R94). -/
theorem execAll_swap {i j : Instr} (hi : setterField i ≠ none) (hj : setterField j ≠ none) (is : List Instr) (s : State) :
    execAll (i :: j :: is) s = execAll (j :: i :: is) s := by
  obtain ⟨f, hf⟩ := Option.ne_none_iff_exists'.mp hi
  obtain ⟨g, hg⟩ := Option.ne_none_iff_exists'.mp hj
  obtain ⟨a, ha⟩ := exec_setter hf
  obtain ⟨b, hb⟩ := exec_setter hg
  rw [execAll_cons_of_next (ha s), execAll_cons_of_next (hb _), execAll_cons_of_next (hb s), execAll_cons_of_next (ha _)]
  simp only [State.drive_cfg, State.writeCfg_cfg, orField_comm f g]
  rfl

/-- Setters in any order leave the same state. -/
theorem execAll_perm {is js : List Instr} (hperm : is.Perm js) (hset : ∀ i ∈ is, setterField i ≠ none) (s : State) :
    execAll is s = execAll js s := by
  induction hperm generalizing s with
  | nil => rfl
  | cons i hperm ih =>
    obtain ⟨-, his⟩ := List.forall_mem_cons.mp hset
    simp only [execAll]
    split
    · exact ih his _
    · rfl
    · rfl
  | swap i j is => exact execAll_swap (hset j (by simp)) (hset i (by simp)) is s
  | trans hperm _ ih₁ ih₂ => exact (ih₁ hset s).trans (ih₂ (fun i hi => hset i (hperm.mem_iff.mpr hi)) s)

/-- Settles O41: setters complete, and any two of them may be exchanged. -/
theorem settersMayBeReordered : Obligations.SettersMayBeReordered := by
  intro is js hset hperm s
  obtain ⟨t, ht, -⟩ := execAll_setters_rsvField hset s
  exact ⟨t, ht, execAll_perm hperm hset s ▸ ht⟩

/-! ## From CFGDEF -/

/-- A byte with RSV = 0 is at most 0x1F. -/
theorem le_of_rsvField_eq_zero {cfg : Byte} (h : rsvField cfg = 0#3) : cfg ≤ 0x1F#8 := by
  have hhigh : cfg.toNat >>> 5 % 2 ^ 3 = 0 := by simpa [rsvField, slice_eq] using congrArg BitVec.toNat h
  have hlt := cfg.isLt
  rw [Nat.shiftRight_eq_div_pow] at hhigh
  rw [BitVec.le_def, BitVec.toNat_ofNat]
  omega

/-- Settles O42: CFGDEF clears RSV, which no setter reaches. -/
theorem settersFromDefaultStayBelowReservedBits : Obligations.SettersFromDefaultStayBelowReservedBits := by
  intro is hset s
  obtain ⟨t, ht, hrsv⟩ := execAll_setters_rsvField hset ((s.writeCfg 0x00).drive .noResult)
  exact ⟨t, (execAll_cons_of_next (exec_cfgdef s)).trans ht, le_of_rsvField_eq_zero (hrsv.trans rsvField_zero)⟩

/-- The byte of the four fields (R17), RSV zero. -/
def cfgByte (sd am ap : BitVec 1) (fq : FieldValue) : Byte := 0#3 ++ fq ++ ap ++ am ++ sd

/-- Each getter reads its field out of the byte. -/
theorem getField_cfgByte (sd am ap : BitVec 1) (fq : FieldValue) :
    getField .sd (cfgByte sd am ap fq) = 0#1 ++ sd ∧ getField .am (cfgByte sd am ap fq) = 0#1 ++ am ∧
    getField .ap (cfgByte sd am ap fq) = 0#1 ++ ap ∧ getField .fq (cfgByte sd am ap fq) = fq := by
  revert sd am ap fq
  decide

/-- CFGDEF and then CFGBUILD's setters leave the byte of the four fields, whatever CFG held (R60). -/
theorem execAll_cfgBuild (sd am ap : BitVec 1) (fq : FieldValue) (s : State) :
    execAll (cfgBuild sd am ap fq) s = .next { s with cfg := cfgByte sd am ap fq, result := .noResult } := by
  have hbyte : ∀ (sd am ap : BitVec 1) (fq : FieldValue),
      orField .sd (immBit (sd.setWidth 2)) (orField .am (immBit (am.setWidth 2)) (orField .ap (immBit (ap.setWidth 2))
        (orField .fq (immPair fq) 0x00))) = cfgByte sd am ap fq := by decide
  rw [← hbyte]
  rfl

theorem cfgByte_eq_or : ∀ (sd am ap : BitVec 1) (fq : FieldValue), cfgByte sd am ap fq =
    (fq.setWidth 8 <<< 3) ||| (ap.setWidth 8 <<< 2) ||| (am.setWidth 8 <<< 1) ||| sd.setWidth 8 := by decide

theorem encode_cfgBuild : ∀ (sd am ap : BitVec 1) (fq : FieldValue), (cfgBuild sd am ap fq).map encode =
    [0x04#8, 0x08#8 ||| (fq.setWidth 8 <<< 4), 0x07#8 ||| (ap.setWidth 8 <<< 4), 0x06#8 ||| (am.setWidth 8 <<< 4),
      0x05#8 ||| (sd.setWidth 8 <<< 4)] := by decide

/-- Settles O43: the words presented are the expansion's, which build the byte. -/
theorem cfgBuildBuildsTheByte : Obligations.CfgBuildBuildsTheByte := by
  intro sd am ap fq
  refine ⟨fun s => by rw [execAll_cfgBuild, cfgByte_eq_or], fun base => ?_⟩
  rw [← encode_cfgBuild, assemble, List.map_map]
  rfl

/-- CFGDEF and then the four setters in any order do what CFGBUILD does. -/
theorem execAll_cfgdef_perm {sd am ap : BitVec 1} {fq : FieldValue} {is : List Instr}
    (hperm : is.Perm [.setsd (0#1 ++ sd), .setam (0#1 ++ am), .setap (0#1 ++ ap), .setfq fq]) (s : State) :
    execAll (.cfgdef :: is) s = execAll (cfgBuild sd am ap fq) s := by
  have hext : ∀ v : BitVec 1, 0#1 ++ v = v.setWidth 2 := by decide
  have hset : ∀ i ∈ is, setterField i ≠ none := by
    intro i hi
    have hmem := hperm.mem_iff.mp hi
    simp only [List.mem_cons, List.not_mem_nil, or_false] at hmem
    obtain rfl | rfl | rfl | rfl := hmem <;> exact nofun
  have hrev : is.Perm [.setfq fq, .setap (ap.setWidth 2), .setam (am.setWidth 2), .setsd (sd.setWidth 2)] := by
    simp only [hext] at hperm
    exact hperm.trans (List.reverse_perm _).symm
  rw [cfgBuild, execAll_cons_of_next (exec_cfgdef s), execAll_cons_of_next (exec_cfgdef s)]
  exact execAll_perm hrev hset _

/-- Settles O39: any order of the four setters leaves the byte that CFGBUILD builds, and each getter reads its field out of it. -/
theorem everyConfigurationIsReachedInAnyOrder : Obligations.EveryConfigurationIsReachedInAnyOrder := by
  intro sd am ap fq is hperm s
  obtain ⟨hsd, ham, hap, hfq⟩ := getField_cfgByte sd am ap fq
  refine ⟨_, (execAll_cfgdef_perm hperm s).trans (execAll_cfgBuild sd am ap fq s), rfl, ?_, ?_, ?_, ?_⟩
  · rw [exec_getsd, getCommand_eq, hsd]
  · rw [exec_getam, getCommand_eq, ham]
  · rw [exec_getap, getCommand_eq, hap]
  · rw [exec_getfq, getCommand_eq, hfq]

end Sys2Proof.ConfigSequences
end

section
/-! SUPPORT. The invariants of a run: the result's value set (10_state.md section 5) and CFG's reserved bits (10_state.md section 2),
kept by every step; and the context of 20_memory.md section 5. -/

namespace Sys2Proof.Invariants

open Sys2Proof Sys2Proof.Machine Sys2Proof.Safety

/-! ## The result -/

/-- DECM's result is an eighth of its 11-bit field. -/
theorem resultInSets_decm {s t : State} (h : exec .decm s = .next t) : ResultInSets t := by
  obtain ⟨⟨b, hexec, -, hzero, hreal⟩, -⟩ := TemperatureCodec.decodedTemperatureIsExact s
  cases hexec.symm.trans h
  have hl := BitVec.le_toInt (s.ports.win.extractLsb' 5 11)
  have hu := BitVec.toInt_lt (x := s.ports.win.extractLsb' 5 11)
  exact ⟨hzero, _, by omega, by omega, hreal⟩

/-- DECT's result is four eighths of its 9-bit field. -/
theorem resultInSets_dect {s t : State} (h : exec .dect s = .next t) : ResultInSets t := by
  obtain ⟨-, b, hexec, -, hzero, hreal⟩ := TemperatureCodec.decodedTemperatureIsExact s
  cases hexec.symm.trans h
  have hl := BitVec.le_toInt (s.ports.win.extractLsb' 7 9)
  have hu := BitVec.toInt_lt (x := s.ports.win.extractLsb' 7 9)
  refine ⟨hzero, 4 * (s.ports.win.extractLsb' 7 9).toInt, by omega, by omega, ?_⟩
  rw [hreal]
  push_cast
  ring

/-- ENCT's word has zero padding. -/
theorem resultInSets_enct {s t : State} (h : exec .enct s = .next t) : ResultInSets t := by
  obtain ⟨f, rfl⟩ := TemperatureCodec.encodedWordsAreTheThresholdWords.1 s t h
  exact TemperatureCodec.append_zero_padding f

/-- A getter's result is a field of the CFG it leaves. -/
theorem resultInSets_getCommand {f : Field} {s t : State} (h : getCommand f s = .next t) : ResultInSets t := by
  rw [getCommand_eq] at h
  cases h
  exact ⟨f, rfl⟩

/-- Whatever a command that completes drives is in the value set of its kind. -/
theorem resultInSets_of_exec {i : Instr} {s t : State} (h : exec i s = .next t) : ResultInSets t := by
  cases hw : writesCfg i with
  | true =>
    have hnone : t.result = .noResult := (CommandEffects.commandsChangeOnlyCfgAndResult i s t h).2.2.mp hw
    simp [ResultInSets, hnone]
  | false =>
    cases i with
    | decm => exact resultInSets_decm h
    | dect => exact resultInSets_dect h
    | enct => exact resultInSets_enct h
    | getsd | getam | getap | getfq => exact resultInSets_getCommand h
    | cfgrd =>
      rw [exec_cfgrd] at h
      cases h
      rfl
    | cfgdef | setsd | setam | setap | setfq | cfgld => cases hw

/-- Settles O48: an idle step drives nothing, and every other step is a command's. -/
theorem stepKeepsResultInSets : Obligations.StepKeepsResultInSets := by
  intro s t _ h
  obtain ⟨-, ⟨-, rfl⟩ | ⟨p, ps, i, -, -, hexec⟩⟩ := step_next_cases h
  · trivial
  · exact resultInSets_of_exec hexec

/-- Settles O49: reset drives nothing. -/
theorem resetResultInSets : Obligations.ResetResultInSets := trivial

/-! ## The reserved bits -/

/-- CFGLD alone can set a reserved bit, and only from BIN (R99, decision D12). -/
theorem rsvField_of_exec {i : Instr} {s t : State} (h : exec i s = .next t) (hcfg : rsvField s.cfg = 0#3)
    (hbin : i = .cfgld → rsvField s.ports.bin = 0#3) : rsvField t.cfg = 0#3 := by
  cases hw : writesCfg i with
  | false => rwa [(CommandEffects.commandsChangeOnlyCfgAndResult i s t h).2.1 hw]
  | true =>
    cases hset : setterField i with
    | some f =>
      obtain ⟨val, hval⟩ := exec_setter hset
      rw [hval, setCommand_eq] at h
      cases h
      exact (ConfigFields.rsvField_orField f val s.cfg).trans hcfg
    | none =>
      cases i with
      | cfgdef =>
        rw [exec_cfgdef] at h
        cases h
        exact ConfigFields.rsvField_zero
      | cfgld =>
        rw [exec_cfgld] at h
        cases h
        exact hbin rfl
      | setsd | setam | setap | setfq => cases hset
      | decm | dect | enct | getsd | getam | getap | getfq | cfgrd => cases hw

/-- Settles O50: a step's command is the first of the stream, and what is left of the stream was there before. -/
theorem stepKeepsReservedBitsClear : Obligations.StepKeepsReservedBitsClear := by
  intro s t hs h
  obtain ⟨hcfg, hloads⟩ := hs
  have hrest : ∀ p ∈ t.pending, decode p.cmd = .ok .cfgld → rsvField p.bin = 0#3 := fun p hp =>
    hloads p (List.mem_of_mem_tail ((Runs.step_next_frame h).2 ▸ hp))
  obtain ⟨-, ⟨-, rfl⟩ | ⟨p, ps, i, hp, hd, hexec⟩⟩ := step_next_cases h
  · exact ⟨hcfg, hrest⟩
  · exact ⟨rsvField_of_exec hexec hcfg fun hi => hloads p (by simp [hp]) (hi ▸ hd), hrest⟩

/-- Settles O51: only the word 0x0D decodes to CFGLD. -/
theorem resetReservedBitsClear : Obligations.ResetReservedBitsClear := by
  refine ⟨⟨ConfigFields.rsvField_zero, nofun⟩, fun ps hps => ⟨ConfigFields.rsvField_zero, fun p hp hd => ?_⟩⟩
  exact absurd (Encoding.encode_of_decode hd).2.symm (hps p hp)

/-! ## Context -/

/-- Settles O55: a word's bytes are its halves, and the frames are the two writable registers' addresses before them. -/
theorem wordsTravelMostSignificantByteFirst : Obligations.WordsTravelMostSignificantByteFirst := by
  have hhigh : ∀ msb lsb : Byte, (wordOfBytes msb lsb).extractLsb' 8 8 = msb := fun _ _ => BitVec.extractLsb'_append_eq_left
  have hlow : ∀ msb lsb : Byte, (wordOfBytes msb lsb).extractLsb' 0 8 = lsb := fun _ _ => BitVec.extractLsb'_append_eq_right
  refine ⟨fun msb lsb => ⟨hhigh msb lsb, hlow msb lsb, ?_⟩, fun w => ⟨rfl, rfl, rfl⟩, rfl⟩
  rw [bytesOfWord, slice_eq, slice_eq, hhigh, hlow]

end Sys2Proof.Invariants
end
